-- ==== Sys2Proof/Word.lean ====
section
/-! DEFINITION. The widths of the machine's values (00_scope.md R15, R16; all unsigned). -/

namespace Sys2Proof

/-- A memory cell, a register, an opcode or an operand: 8 bits, bit 7 the most significant (R16). -/
abbrev Byte := BitVec 8

/-- The address a fault record holds: `pc + k`, a 9-bit value (R27, R48). -/
abbrev Addr9 := BitVec 9

end Sys2Proof
end

