-- ==== Sys2Proof/Config.lean ====
section
/-! DEFINITION. What an implementation fixes (00_scope.md R15): the two configuration values of the machine.
The spec leaves no other value open, so there is no free value here. -/

namespace Sys2Proof

/-- The configuration the model takes as an argument (R15, R35; decisions D1 and D9). -/
structure Config where
  /-- `ADD_FETCHABLE`: whether the opcode byte 0xA0 decodes as ADD (R62). -/
  addFetchable : Bool
  /-- `LINE_BREAK`: the text that ends a printed line (R87). -/
  lineBreak : List Char
  deriving DecidableEq, Repr

/-- The spec's own setting (R15): `ADD_FETCHABLE = true` (log 3), `LINE_BREAK` = U+000A (log 4). -/
def Config.spec : Config := { addFetchable := true, lineBreak := [Char.ofNat 10] }

/-- The other value of `ADD_FETCHABLE` (R62): 0xA0 is an unrecognised opcode. -/
def Config.withoutAdd : Config := { Config.spec with addFetchable := false }

end Sys2Proof
end

