-- ==== Sys2Proof/Syntax.lean ====
section
/-! DEFINITION. The instructions, one constructor per row of spec/opcode_table.json (30_encoding.md R60).
An operand is the whole operand byte (R63, R64): a register operand of 8 to 255 is still this instruction,
and executing it raises REG_BOUNDS (R66, log 6). -/

namespace Sys2Proof

/-- The closed set of five instructions (00_scope.md R11). -/
inductive Instr where
  /-- `LDI ra, imm` (R85): `a` the register byte, `imm` the immediate byte. -/
  | ldi (a imm : Byte)
  /-- `PRN ra` (R88). -/
  | prn (a : Byte)
  /-- `MUL ra, rb` (R90): `a` first source and destination, `b` second source. -/
  | mul (a b : Byte)
  /-- `ADD ra, rb` (R91): `a` first source and destination, `b` second source. -/
  | add (a b : Byte)
  /-- `HLT` (R95). -/
  | hlt
  deriving DecidableEq, Repr

end Sys2Proof
end

