-- ==== Sys2Proof/WellFormed.lean ====
section
/-! DEFINITION. Which instruction terms hold only legal operand values (30_encoding.md R66). -/

namespace Sys2Proof

/-- A register operand is legal when the whole byte is 0 to 7 (R22, R63). -/
abbrev legalReg (a : Byte) : Prop := a.toNat ≤ 7

/-- The only illegal operand values are register bytes 8 to 255, in `a` of LDI, PRN, MUL, ADD and in `b` of
MUL, ADD; every immediate is legal (R66). -/
abbrev Instr.WellFormed (i : Instr) : Prop :=
  match i with
  | .ldi a _ => legalReg a
  | .prn a => legalReg a
  | .mul a b => legalReg a ∧ legalReg b
  | .add a b => legalReg a ∧ legalReg b
  | .hlt => True

end Sys2Proof
end

