-- ==== Sys2Proof/Decode.lean ====
section
/-! DEFINITION. The decoder, total on any bytes, and the encoder, from the opcode map of 30_encoding.md R60. -/

namespace Sys2Proof

/-- The five rows of the opcode map, without their operands (R60). -/
inductive Opcode where
  | ldi | prn | mul | add | hlt
  deriving DecidableEq, Repr

/-- How many operand bytes follow the opcode byte (R60): a function of the opcode alone (R61). -/
def Opcode.operandCount : Opcode → Nat
  | .ldi => 2
  | .prn => 1
  | .mul => 2
  | .add => 2
  | .hlt => 0

/-- The opcode byte of each row (R60). -/
def Opcode.byte : Opcode → Byte
  | .ldi => 0b10000010
  | .prn => 0b01000111
  | .mul => 0b10100010
  | .add => 0b10100000
  | .hlt => 0b00000001

/-- R75: the whole byte is compared with the map; 0xA0 is ADD only when `ADD_FETCHABLE` (R62); every other
byte is unrecognised (R65). No subset of the bits is decoded on its own (R60, R69). -/
def decodeOpcode (cfg : Config) (ir : Byte) : Option Opcode :=
  if ir = Opcode.ldi.byte then some .ldi
  else if ir = Opcode.prn.byte then some .prn
  else if ir = Opcode.mul.byte then some .mul
  else if ir = Opcode.add.byte ∧ cfg.addFetchable = true then some .add
  else if ir = Opcode.hlt.byte then some .hlt
  else none

/-- Why bytes are not an instruction. -/
inductive DecodeReject where
  /-- The opcode byte is not in the map (R65). -/
  | unrecognisedOpcode
  /-- The operand byte `k` places after the opcode byte is not there (R77); `k` is the first such place. -/
  | operandMissing (k : Nat)
  deriving DecidableEq, Repr

/-- R58, R59: the instruction whose opcode byte is `ir` and whose operand bytes lead `rest`, with the bytes
that follow it. Exactly `operandCount` bytes are taken (R76). -/
def decode (cfg : Config) (ir : Byte) (rest : List Byte) : Except DecodeReject (Instr × List Byte) :=
  match decodeOpcode cfg ir, rest with
  | none, _ => .error .unrecognisedOpcode
  | some .hlt, bs => .ok (.hlt, bs)
  | some .prn, a :: bs => .ok (.prn a, bs)
  | some .ldi, a :: b :: bs => .ok (.ldi a b, bs)
  | some .mul, a :: b :: bs => .ok (.mul a b, bs)
  | some .add, a :: b :: bs => .ok (.add a b, bs)
  | some _, bs => .error (.operandMissing (bs.length + 1))

/-- The row of the opcode map an instruction belongs to. -/
def Instr.opcode : Instr → Opcode
  | .ldi _ _ => .ldi
  | .prn _ => .prn
  | .mul _ _ => .mul
  | .add _ _ => .add
  | .hlt => .hlt

/-- The operand bytes in memory order (R59). -/
def Instr.operandBytes : Instr → List Byte
  | .ldi a imm => [a, imm]
  | .prn a => [a]
  | .mul a b => [a, b]
  | .add a b => [a, b]
  | .hlt => []

/-- The instruction's bytes in memory order: the opcode byte, then the operand bytes (R58, R59). Row by row it is the
byte table of R70: `0x82 a imm`, `0x47 a`, `0xA2 a b`, `0xA0 a b`, `0x01`. -/
def encode (i : Instr) : List Byte := i.opcode.byte :: i.operandBytes

/-- R61: size = 1 + operand count. -/
def Instr.size (i : Instr) : Nat := 1 + i.opcode.operandCount

/-- Whether the decoder can produce `i` (R62): every instruction, but ADD only when `ADD_FETCHABLE`. -/
abbrev Instr.Fetchable (cfg : Config) (i : Instr) : Prop :=
  i.opcode = .add → cfg.addFetchable = true

/-- Byte `k` of an instruction whose bits are `w`, bit 0 the least significant bit of the first byte; every
bit from `nbits` up is 0 (the host's numbering of spec/opcode_table.json). -/
def tableByte (nbits w k : Nat) : Byte := BitVec.ofNat 8 (w % 2 ^ nbits / 256 ^ k)

/-- What the decoder reads from the bytes of `w`, laid out at ascending addresses (R43), under the spec's
setting of the configuration. -/
def decodeTableWord (nbits w : Nat) : Option Instr :=
  match decode Config.spec (tableByte nbits w 0) [tableByte nbits w 1, tableByte nbits w 2] with
  | .ok (i, _) => some i
  | .error _ => none

end Sys2Proof
end

