-- ==== Sys2Proof/Machine/State.lean ====
section
/-! DEFINITION. The state of the machine, whole (10_state.md R35), its reset values (R34), and the reasons a step
could stop. Plain data. -/

namespace Sys2Proof.Machine

/-- The fault causes, all of them (60_exceptions.md R96). Each is latched in `State.fault` by a next state
(R104), so none of them is a stop of the model (log 2). -/
inductive FaultCause where
  /-- Code 1: the byte at `pc` is not in the opcode map (R97). -/
  | unrecognizedOpcode
  /-- Code 2: an operand byte the instruction needs lies above 255 (R98). -/
  | memBoundsOperand
  /-- Code 3: the instruction's last byte is at 255, so the next opcode would be fetched from 256 (R99). -/
  | memBoundsFetch
  /-- Code 4: a register operand is greater than 7 (R100). -/
  | regBounds
  deriving DecidableEq, Repr

/-- The fault record `(cause, addr, val)` (R27). -/
structure FaultRecord where
  cause : FaultCause
  addr : Addr9
  val : Byte
  deriving DecidableEq, Repr

/-- Memory: the cells that differ from 0, by strictly rising address (log 5). -/
abbrev Memory := List Host.Cell

/-- The state record: "exactly the fields" of R35, no more. -/
structure State where
  /-- The register file (R19). -/
  x : Vector Byte 8
  /-- The program counter (R23). -/
  pc : Byte
  /-- The flags register, inert (R25). -/
  fl : Byte
  /-- The running flag (R26). -/
  running : Bool
  /-- The fault latch (R27). -/
  fault : Option FaultRecord
  /-- The memory `M` (R30). -/
  mem : Memory
  /-- The output stream, oldest value first (R32). -/
  out : List Byte
  deriving DecidableEq, Repr

/-- Reasons a step stops with a fault of the model: there are none (log 2). Every error the spec describes is
latched in `State.fault` and is a next state (R104). Safe: nothing stops where the hardware goes on. -/
inductive Fault where
  deriving DecidableEq, Repr

/-- Reasons an answer is refused. -/
inductive Refusal where
  /-- An instruction without a meaning: raised by no arm of this model. Safe. -/
  | notModelled (mnemonic : String)
  /-- A load port request outside 0 to 255: "no cell changes and a bounds error is reported to the host" (R37,
  R46, log 10). Raised by `State.loadRead`, `State.loadWrite` and `launch`, never by a step. Safe. -/
  | loadBounds (addr : Nat)
  /-- A load port request once the engine has taken a step, or after the run has ended: the load interface is closed
  then (R37, R115, R120, log 9). Raised by `State.loadRead` and `State.loadWrite`, never by a step. Safe. -/
  | loadClosed
  deriving DecidableEq, Repr

/-- Machine construction (R34, R114): registers 0 but register 6, which is 0xF4; every cell 0; `pc` 0; `fl` 0;
running; no fault; no output. -/
def State.reset : State :=
  { x := #v[0, 0, 0, 0, 0, 0, 0xF4, 0]
    pc := 0
    fl := 0
    running := true
    fault := none
    mem := []
    out := [] }

end Sys2Proof.Machine
end

