-- ==== Sys2Proof/Machine/Ops.lean ====
section
/-! DEFINITION. The named operations over memory, registers, the output stream, the fault latch and the program
counter, and the ALU: everything the meanings and the step share. -/

namespace Sys2Proof.Machine

/-! ### Memory (20_memory.md) -/

/-- The cell at an address: an unlisted cell holds 0 (R34, R49). -/
def Memory.cell : Memory → Nat → Byte
  | [], _ => 0
  | (k, v) :: m, a => if k = a then v else Memory.cell m a

/-- The memory with one cell replaced, in canonical form (log 5). -/
def Memory.put : Memory → Nat → Byte → Memory
  | [], a, v => if v = 0 then [] else [(a, v)]
  | (k, w) :: m, a, v =>
    if a < k then (if v = 0 then (k, w) :: m else (a, v) :: (k, w) :: m)
    else if a = k then (if v = 0 then m else (a, v) :: m)
    else (k, w) :: Memory.put m a v

/-- The canonical form from address `lo` up: addresses strictly rising and at most 255, no listed cell 0. -/
def Memory.wfFrom : Nat → Memory → Bool
  | _, [] => true
  | lo, (k, v) :: m => decide (lo ≤ k) && decide (k ≤ 255) && decide (v ≠ 0) && Memory.wfFrom (k + 1) m

/-- The canonical form of a memory (log 5). -/
def Memory.wf (m : Memory) : Bool := Memory.wfFrom 0 m

/-- `MemRead(addr, 1)` (R45): the cell when `addr` is 0 to 255, else a bounds error. -/
def memRead (m : Memory) (addr : Nat) : Option Byte :=
  if addr ≤ 255 then some (m.cell addr) else none

/-- `MemWrite(addr, 1, v)` (R46): stores `v mod 256` when `addr` is 0 to 255, else a bounds error. -/
def memWrite (m : Memory) (addr v : Nat) : Option Memory :=
  if addr ≤ 255 then some (m.put addr (BitVec.ofNat 8 v)) else none

/-! ### One update of one field each -/

/-- `x[r]` (R16, R20). -/
def State.readReg (s : State) (r : Fin 8) : Byte := s.x[r]

/-- `x[r] <- v` (R16, R20). -/
def State.writeReg (s : State) (r : Fin 8) (v : Byte) : State := { s with x := s.x.set r v }

/-- `pc <- target` (R16). -/
def State.setPc (s : State) (target : Byte) : State := { s with pc := target }

/-- `emit(v)` (R86): one value appended to the output stream. -/
def State.emit (s : State) (v : Byte) : State := { s with out := s.out ++ [v] }

/-- `running <- false` (R95). -/
def State.stop (s : State) : State := { s with running := false }

/-- The memory replaced: by the load port only (R42, R46). -/
def State.setMem (s : State) (m : Memory) : State := { s with mem := m }

/-- Setting the fault latch to a record: all that a raise does (R104). -/
def State.latch (s : State) (f : FaultRecord) : State := { s with fault := some f }

/-! ### Addresses and taking a fault -/

/-- `pc + k`: a natural number, never reduced modulo 256 (R48). -/
def State.addrOf (s : State) (k : Nat) : Nat := s.pc.toNat + k

/-- The record `(cause, pc + k, val)` (R96); the address is held in 9 bits (R27). -/
def State.faultAt (s : State) (c : FaultCause) (k : Nat) (val : Byte) : FaultRecord :=
  { cause := c, addr := BitVec.ofNat 9 (s.addrOf k), val := val }

/-- Taking a fault: `raise <Cause>(pc + k, val)` (R104). Nothing but the latch is written: no pc, no mode, no
saved state; there is no return from it (R106). -/
def State.raise (s : State) (c : FaultCause) (k : Nat) (val : Byte) : State :=
  s.latch (s.faultAt c k val)

/-- The numeric code of a cause (R96). -/
def FaultCause.code : FaultCause → Nat
  | .unrecognizedOpcode => 1
  | .memBoundsOperand => 2
  | .memBoundsFetch => 3
  | .regBounds => 4

/-! ### The sequencer (40_engine_cycle.md R81, R82) -/

/-- The last action of the step of an instruction that executed. `pc + size` at most 255: the pc takes it. Above:
the pc is not written, and an instruction other than HLT raises MEM_BOUNDS_FETCH with its own opcode byte. -/
def State.advance (s : State) (i : Instr) : State :=
  if s.addrOf i.size ≤ 255 then s.setPc (BitVec.ofNat 8 (s.addrOf i.size))
  else if i.opcode = .hlt then s
  else s.raise .memBoundsFetch i.size i.opcode.byte

/-! ### The ALU (43_alu.md R89) -/

/-- The operation selector: exactly two values (R94). -/
inductive AluOp where
  | add | mul
  deriving DecidableEq, Repr

/-- The exact sum or product of two registers' values, reduced modulo 256 (R89, R92). -/
def aluResult : AluOp → Byte → Byte → Byte
  | .add, u, v => BitVec.ofNat 8 ((u.toNat + v.toNat) % 256)
  | .mul, u, v => BitVec.ofNat 8 ((u.toNat * v.toNat) % 256)

/-- `alu(sel, a, b)`: both sources are read before the destination `a` is written; nothing else is touched (R89). `a` is
"both the first source and the destination" (R70). -/
def State.alu (s : State) (sel : AluOp) (a b : Fin 8) : State :=
  s.writeReg a (aluResult sel (s.readReg a) (s.readReg b))

end Sys2Proof.Machine
end

