-- ==== Sys2Proof/Machine/Operands.lean ====
section
/-! DEFINITION. The operand forms: operand bytes and their bounds check, register operands and their index check.
The immediate of LDI is its operand byte as it is (30_encoding.md R64) and needs no operation. -/

namespace Sys2Proof.Machine

/-- The byte `k` places after the pc; `k` = 0 is the opcode byte (R74, R76). -/
def State.fetchByte (s : State) (k : Nat) : Byte := s.mem.cell (s.addrOf k)

/-- The operand bytes of an instruction with `n` operands at the pc that exist in memory, in ascending address
order (R76); an address above 255 is never presented to the memory (R48). -/
def State.fetchOperands (s : State) (n : Nat) : List Byte :=
  if n = 0 then []
  else if 255 < s.addrOf 1 then []
  else if n = 1 then [s.fetchByte 1]
  else if 255 < s.addrOf 2 then [s.fetchByte 1]
  else [s.fetchByte 1, s.fetchByte 2]

/-- The place of the first operand byte, of `n`, whose address is above 255 (R77). -/
def State.operandOutside (s : State) (n : Nat) : Option Nat :=
  if 1 ≤ n ∧ 255 < s.addrOf 1 then some 1
  else if n = 2 ∧ 255 < s.addrOf 2 then some 2
  else none

/-- The operand fetch bounds of instruction `i` at the pc (R77), then `f`. In a step the bytes of `i` have been
fetched and this check passes (log 7). -/
def State.withOperands (s : State) (i : Instr) (f : State) : State :=
  match s.operandOutside i.opcode.operandCount with
  | some k => s.raise .memBoundsOperand k i.opcode.byte
  | none => f

/-- The register index check of the operand byte `v`, `k` places after the opcode (R79): the whole byte is
compared with 7, never truncated (R22); then `f` of the register. -/
def State.withReg (s : State) (k : Nat) (v : Byte) (f : Fin 8 → State) : State :=
  if h : v.toNat < 8 then f ⟨v.toNat, h⟩ else s.raise .regBounds k v

end Sys2Proof.Machine
end

