-- ==== Sys2Proof/Machine/Alu.lean ====
section
/-! DEFINITION. MUL and ADD (43_alu.md R90, R91), whose first operand is "both the first source and
the destination" (30_encoding.md R70). The index of `a` is checked before that of `b` (R79). -/

namespace Sys2Proof.Machine

/-- `alu(MUL, a, b)` (R90). -/
def execMul (a b : Byte) (s : State) : Host.Outcome State Fault Refusal :=
  .next (s.withOperands (.mul a b)
    (s.withReg 1 a fun ra => s.withReg 2 b fun rb => (s.alu .mul ra rb).advance (.mul a b)))

/-- `alu(ADD, a, b)` (R91). -/
def execAdd (a b : Byte) (s : State) : Host.Outcome State Fault Refusal :=
  .next (s.withOperands (.add a b)
    (s.withReg 1 a fun ra => s.withReg 2 b fun rb => (s.alu .add ra rb).advance (.add a b)))

end Sys2Proof.Machine
end

