-- ==== Sys2Proof/Machine/Halt.lean ====
section
/-! DEFINITION. HLT (44_halt.md R95). -/

namespace Sys2Proof.Machine

/-- `running <- false`; no operand byte is read and no fault is possible, at any address (R95). -/
def execHlt (s : State) : Host.Outcome State Fault Refusal :=
  .next (s.stop.advance .hlt)

end Sys2Proof.Machine
end

