-- ==== Sys2Proof/Machine/LoadImmediate.lean ====
section
/-! DEFINITION. LDI (41_load_immediate.md R85). -/

namespace Sys2Proof.Machine

/-- `x[a] <- imm`, the immediate used as it is (R85, R64). -/
def execLdi (a imm : Byte) (s : State) : Host.Outcome State Fault Refusal :=
  .next (s.withOperands (.ldi a imm) (s.withReg 1 a fun ra => (s.writeReg ra imm).advance (.ldi a imm)))

end Sys2Proof.Machine
end

