-- ==== Sys2Proof/Machine/Print.lean ====
section
/-! DEFINITION. PRN and the text of the output stream (42_print.md R86 to R88). -/

namespace Sys2Proof.Machine

/-- `emit(x[a])` (R88). -/
def execPrn (a : Byte) (s : State) : Host.Outcome State Fault Refusal :=
  .next (s.withOperands (.prn a) (s.withReg 1 a fun ra => (s.emit (s.readReg ra)).advance (.prn a)))

/-- The character of a decimal digit. -/
def digitChar (d : Nat) : Char := Char.ofNat (48 + d)

/-- `dec(v)`: the decimal numeral, most significant digit first, no leading zero, one to three characters (R87). -/
def dec (v : Byte) : List Char :=
  let n := v.toNat
  if n < 10 then [digitChar n]
  else if n < 100 then [digitChar (n / 10), digitChar (n % 10)]
  else [digitChar (n / 100), digitChar (n / 10 % 10), digitChar (n % 10)]

/-- The text of an output stream: for each value in order, its numeral and `LINE_BREAK` (R87). -/
def outputText (cfg : Config) (out : List Byte) : List Char :=
  out.flatMap fun v => dec v ++ cfg.lineBreak

end Sys2Proof.Machine
end

