-- ==== Sys2Proof/Machine/Dispatch.lean ====
section
/-! DEFINITION. Dispatch (40_engine_cycle.md R80): one arm per instruction, each a direct call of its meaning. -/

namespace Sys2Proof.Machine

/-- What instruction `i`, whose opcode byte stands at the pc, does to a state: its checks, its execute action and
the advance of the pc (R73 from the operand fetch bounds on). -/
def exec (i : Instr) (s : State) : Host.Outcome State Fault Refusal :=
  match i with
  | .ldi a imm => Sys2Proof.Machine.execLdi a imm s
  | .prn a => Sys2Proof.Machine.execPrn a s
  | .mul a b => Sys2Proof.Machine.execMul a b s
  | .add a b => Sys2Proof.Machine.execAdd a b s
  | .hlt => Sys2Proof.Machine.execHlt s

end Sys2Proof.Machine
end

