-- ==== Sys2Proof/Machine/Flags.lean ====
section
/-! DEFINITION. Conditions on the running flag and the fault latch. The flags register `fl` has no fields and no
computation: no instruction reads or writes it (10_state.md R25, 43_alu.md R93). -/

namespace Sys2Proof.Machine

/-- A step is enabled exactly when `running = true` and `fault = none` (40_engine_cycle.md R73). -/
def State.enabled (s : State) : Bool := s.running && s.fault.isNone

/-- A clean halt: `running = false` and `fault = none` (R84). -/
def State.cleanHalt (s : State) : Bool := !s.running && s.fault.isNone

/-- A faulted state: `fault` is a record, `running` still true (R84). -/
def State.faulted (s : State) : Bool := s.running && s.fault.isSome

end Sys2Proof.Machine
end

