-- ==== Sys2Proof/Machine/Cycle.lean ====
section
/-! DEFINITION. One cycle of the engine: fetch, decode, and what a rejected decode raises (40_engine_cycle.md). -/

namespace Sys2Proof.Machine

/-- How many operand bytes the byte `ir` calls for; a byte that is no opcode calls for none (R75, R78). -/
def operandsOf (cfg : Config) (ir : Byte) : Nat :=
  match decodeOpcode cfg ir with
  | some op => op.operandCount
  | none => 0

/-- Opcode fetch, decode and operand fetch, gated on the operand count (R74 to R76). -/
def State.fetchInstr (s : State) (cfg : Config) : Except DecodeReject (Instr × List Byte) :=
  decode cfg (s.fetchByte 0) (s.fetchOperands (operandsOf cfg (s.fetchByte 0)))

/-- What an enabled step does (R73): a byte that is no opcode raises UNRECOGNIZED_OPCODE (R78), a missing operand
byte raises MEM_BOUNDS_OPERAND (R77), an instruction executes. -/
def cycle (cfg : Config) (s : State) : Host.Outcome State Fault Refusal :=
  match s.fetchInstr cfg with
  | .error .unrecognisedOpcode => .next (s.raise .unrecognizedOpcode 0 (s.fetchByte 0))
  | .error (.operandMissing k) => .next (s.raise .memBoundsOperand k (s.fetchByte 0))
  | .ok (i, _) => exec i s

end Sys2Proof.Machine
end

