-- ==== Sys2Proof/Machine/Load.lean ====
section
/-! DEFINITION. The reset event and the load port (10_state.md R36, R37; 70_reset_and_hazards.md R114 to R118, R120). These
are the host's actions, not steps of the engine (log 9). -/

namespace Sys2Proof.Machine

/-- The `reset` event: every field to its reset value, whatever the state before (R36, R114, R115). -/
def State.resetEvent (_ : State) : State := State.reset

/-- The load port is open "after reset, before start" (R37, R120). Until the first step the state is that of reset but
for the memory (R114, R117), and after it never again: so the fields of R35 show the phase (log 9). -/
def State.loadOpen (s : State) : Bool := decide (s = State.reset.setMem s.mem)

/-- `MemRead(addr, 1)` at the load port; refused when the port is closed (R37, R115, R120), and outside 0 to 255 (R37,
R45). -/
def State.loadRead (s : State) (addr : Nat) : Except Refusal Byte :=
  if s.loadOpen then
    match memRead s.mem addr with
    | some v => .ok v
    | none => .error (.loadBounds addr)
  else .error .loadClosed

/-- `MemWrite(addr, 1, v)` at the load port; refused, and no cell changes, when the port is closed (R37, R115, R120),
and outside 0 to 255 (R37, R46, D20). -/
def State.loadWrite (s : State) (addr v : Nat) : Host.Outcome State Fault Refusal :=
  if s.loadOpen then
    match memWrite s.mem addr v with
    | some m => .next (s.setMem m)
    | none => .refused (.loadBounds addr)
  else .refused .loadClosed

/-- The load of the bytes of a program at ascending addresses from `k` (R117); the first refusal ends it. -/
def State.loadFrom (k : Nat) : List Byte → State → Host.Outcome State Fault Refusal
  | [], s => .next s
  | b :: bs, s =>
    match s.loadWrite k b.toNat with
    | .next s' => State.loadFrom (k + 1) bs s'
    | .fault r => .fault r
    | .refused r => .refused r

/-- The launch state of a program (R118): reset, then the load. A program of more than 256 bytes is refused: its
launch state is not defined (R117, D13, log 10). -/
def launch (prog : List Byte) : Host.Outcome State Fault Refusal :=
  State.loadFrom 0 prog State.reset

end Sys2Proof.Machine
end

