-- ==== Sys2Proof/Machine/Step.lean ====
section
/-! DEFINITION. The step function (40_engine_cycle.md R73), and where it fetches from. -/

namespace Sys2Proof.Machine

/-- One step under a configuration. In a state where the step is not enabled "the engine does nothing and no state
element changes" (R73): the answer is the same state (log 1). -/
def stepWith (cfg : Config) (s : State) : Host.Outcome State Fault Refusal :=
  if s.enabled then cycle cfg s else .next s

/-- One step under the spec's setting of the configuration (R15, log 3). -/
def step (s : State) : Host.Outcome State Fault Refusal := stepWith Config.spec s

/-- `s` with byte `k` of the instruction whose bits are `w` stored `k` places after the pc, where it exists. -/
def State.withFetchByte (s : State) (nbits w k : Nat) : State :=
  if s.addrOf k ≤ 255 then s.setMem (s.mem.put (s.addrOf k) (tableByte nbits w k)) else s

/-- `s` with the three bytes of `w` stored at `pc`, `pc + 1` and `pc + 2`, where an enabled step fetches its next
instruction (R58, R74, R76). It stands for the host's load of a program (R117, log 8). -/
def State.withFetchWord (s : State) (nbits w : Nat) : State :=
  ((s.withFetchByte nbits w 0).withFetchByte nbits w 1).withFetchByte nbits w 2

end Sys2Proof.Machine
end

