-- ==== Sys2Proof/Safety.lean ====
section
/-! DEFINITION. What claims are stated in: the invariant of the machine, the machine under either configuration, the
step as the one listing of 40_engine_cycle.md R73, and the renaming of registers. -/

namespace Sys2Proof.Safety

open Sys2Proof.Machine

/-- How many of an instruction's operand bytes, counted from the first, are register operands (R59, R66). -/
def regOperands : Opcode → Nat
  | .ldi => 1
  | .prn => 1
  | .mul => 2
  | .add => 2
  | .hlt => 0

/-- What a latched record says of the state it stands in (60_exceptions.md R96 to R100): the pc was not moved by
the raise, and the record's address and value are those of the byte at fault. -/
def FaultExplained (cfg : Config) (s : State) (f : FaultRecord) : Prop :=
  match f.cause with
  | .unrecognizedOpcode =>
    f.addr.toNat = s.pc.toNat ∧ f.val = s.fetchByte 0 ∧ decodeOpcode cfg f.val = none
  | .memBoundsOperand =>
    f.addr.toNat = 256 ∧ f.val = s.fetchByte 0 ∧
      ∃ op, decodeOpcode cfg f.val = some op ∧ 255 < s.pc.toNat + op.operandCount
  | .memBoundsFetch =>
    f.addr.toNat = 256 ∧ f.val = s.fetchByte 0 ∧
      ∃ op, decodeOpcode cfg f.val = some op ∧ op ≠ .hlt ∧ s.pc.toNat + op.operandCount = 255
  | .regBounds =>
    7 < f.val.toNat ∧ f.addr.toNat ≤ 255 ∧
      ∃ op k, decodeOpcode cfg (s.fetchByte 0) = some op ∧ 1 ≤ k ∧ k ≤ regOperands op ∧
        f.addr.toNat = s.pc.toNat + k ∧ f.val = s.fetchByte k ∧ (k = 2 → (s.fetchByte 1).toNat ≤ 7)

/-- The invariant of the machine: what every state reached from a launch has, and every step keeps. -/
structure Inv (cfg : Config) (s : State) : Prop where
  /-- The memory is in canonical form (log 5): in particular no cell exists outside 0 to 255 (R41). -/
  memory : s.mem.wf = true
  /-- `fl` is 0 in every reachable state (R25). -/
  flags : s.fl = 0
  /-- A fault leaves `running` true, and HLT raises no fault (R26, R95, R104). -/
  stopped : s.running = false → s.fault = none
  /-- A latched record names the byte at fault (R96 to R100). -/
  explained : ∀ f, s.fault = some f → FaultExplained cfg s f
  /-- A halted state has an HLT byte before its pc, or at its pc when that is 255 (R81, R82, R84). -/
  halted : s.running = false →
    (1 ≤ s.pc.toNat ∧ s.mem.cell (s.pc.toNat - 1) = 0x01) ∨ (s.pc.toNat = 255 ∧ s.mem.cell 255 = 0x01)

/-- The machine under a configuration; under `Config.spec` it is `Sys2Proof.core`. -/
abbrev coreWith (cfg : Config) : Host.Core :=
  { State := State
    Fault := Fault
    Refusal := Refusal
    step := stepWith cfg
    reset := State.reset }

/-- The `execute` line of the listing of R73, for the opcode byte `ir` and operand bytes `a`, `b` (R85, R88, R90, R91,
R95), on the bytes themselves. -/
def listingExecute (ir a b : Byte) (s : State) : State :=
  let xa := s.x[a.toNat]?.getD 0
  let xb := s.x[b.toNat]?.getD 0
  if ir = 0x82 then { s with x := s.x.setIfInBounds a.toNat b }
  else if ir = 0x47 then { s with out := s.out ++ [xa] }
  else if ir = 0xA2 then { s with x := s.x.setIfInBounds a.toNat (xa * xb) }
  else if ir = 0xA0 then { s with x := s.x.setIfInBounds a.toNat (xa + xb) }
  else { s with running := false }

/-- The step of R73 written as the one listing the spec prints, on the bytes themselves: no decoder, no
instruction type and none of the shared operations. -/
def listing (cfg : Config) (s : State) : State :=
  if s.running = true ∧ s.fault = none then
    let pc := s.pc.toNat
    let ir := s.mem.cell pc
    let a := s.mem.cell (pc + 1)
    let b := s.mem.cell (pc + 2)
    let isAlu := ir = 0xA2 ∨ (ir = 0xA0 ∧ cfg.addFetchable = true)
    let n := if ir = 0x82 ∨ isAlu then 2 else if ir = 0x47 then 1 else 0
    let next := pc + 1 + n
    if ¬(ir = 0x82 ∨ ir = 0x47 ∨ isAlu ∨ ir = 0x01) then
      { s with fault := some ⟨.unrecognizedOpcode, BitVec.ofNat 9 pc, ir⟩ }
    else if n ≥ 1 ∧ pc + 1 > 255 then
      { s with fault := some ⟨.memBoundsOperand, BitVec.ofNat 9 (pc + 1), ir⟩ }
    else if n = 2 ∧ pc + 2 > 255 then
      { s with fault := some ⟨.memBoundsOperand, BitVec.ofNat 9 (pc + 2), ir⟩ }
    else if n ≥ 1 ∧ a.toNat > 7 then
      { s with fault := some ⟨.regBounds, BitVec.ofNat 9 (pc + 1), a⟩ }
    else if isAlu ∧ b.toNat > 7 then
      { s with fault := some ⟨.regBounds, BitVec.ofNat 9 (pc + 2), b⟩ }
    else if next ≤ 255 then
      { listingExecute ir a b s with pc := BitVec.ofNat 8 next }
    else if ir ≠ 0x01 then
      { listingExecute ir a b s with fault := some ⟨.memBoundsFetch, BitVec.ofNat 9 next, ir⟩ }
    else listingExecute ir a b s
  else s

/-- The register operand bytes of an instruction (R20). -/
def registerBytes : Instr → List Byte
  | .ldi a _ => [a]
  | .prn a => [a]
  | .mul a b => [a, b]
  | .add a b => [a, b]
  | .hlt => []

/-- The operand byte that names the register an instruction writes: the Writes column of R20. -/
def destByte : Instr → Option Byte
  | .ldi a _ => some a
  | .prn _ => none
  | .mul a _ => some a
  | .add a _ => some a
  | .hlt => none

/-- The bytes of an instruction as one number, its first byte lowest (the host's numbering). -/
def tableWord (i : Instr) : Nat := (encode i).foldr (fun b acc => b.toNat + 256 * acc) 0

/-- The operand byte that names register `r`. -/
def regByte (r : Fin 8) : Byte := BitVec.ofNat 8 r.val

/-- The state with its registers renamed: register `r` of the result is register `old r` of `s`. -/
def renamed (old : Fin 8 → Fin 8) (s : State) : State :=
  { s with x := Vector.ofFn fun r => s.x[old r] }

end Sys2Proof.Safety
end

