-- ==== Sys2Proof/Certificates/Slice0/Obligations.lean ====
section
/-! DEFINITION. The statements for the provers. Each docstring names what the statement formalises; one that rests on
a decision of the spec (D<n>) or of the model (log <n>) says so. -/

open Sys2Proof Sys2Proof.Machine Sys2Proof.Safety

/-! ### Decoding and encoding -/

/-- Words written out from the formats of 30_encoding.md sections 1, 2 and 6 decode to what they stand for, and the
nearest other bytes (95_test_vectors.md V10) to nothing. -/
def Obligations.WrittenOutWordsDecode : Prop :=
  decode Config.spec 0b10000010 [0b00000011, 0b11001000] = .ok (.ldi 3 200, []) ∧
  decode Config.spec 0b01000111 [0b00000110, 0b00000001] = .ok (.prn 6, [1]) ∧
  decode Config.spec 0b10100010 [0b00000010, 0b00000101] = .ok (.mul 2 5, []) ∧
  decode Config.spec 0b10100000 [0b00000110, 0b00000011] = .ok (.add 6 3, []) ∧
  decode Config.spec 0b00000001 [0b10000010] = .ok (.hlt, [0b10000010]) ∧
  decode Config.withoutAdd 0b10100000 [0, 1] = .error .unrecognisedOpcode ∧
  decode Config.spec 0b10000011 [0, 1] = .error .unrecognisedOpcode ∧
  decode Config.spec 0b00000000 [] = .error .unrecognisedOpcode

/-- 30_encoding.md sections 1 to 4: the decoder reads instruction `i` from exactly the bytes of its encoding,
whatever follows them, and ADD only when `ADD_FETCHABLE` (decision D1). No bit of an encoding is dropped, and no
other bytes decode to an instruction. -/
def Obligations.DecodeExactlyInvertsEncode : Prop :=
  ∀ (cfg : Config) (ir : Byte) (bs rest : List Byte) (i : Instr),
    decode cfg ir bs = .ok (i, rest) ↔ i.Fetchable cfg ∧ ir :: bs = encode i ++ rest

/-- 30_encoding.md sections 2 and 4: the opcode map, whole byte by whole byte; every other byte is unrecognised: 251
of them with `ADD_FETCHABLE = true`, 252 with `false` (decision D1). -/
def Obligations.OpcodeMapIsTheFiveBytes : Prop :=
  (∀ (cfg : Config) (ir : Byte),
    (decodeOpcode cfg ir = some .ldi ↔ ir = 0x82) ∧
    (decodeOpcode cfg ir = some .prn ↔ ir = 0x47) ∧
    (decodeOpcode cfg ir = some .mul ↔ ir = 0xA2) ∧
    (decodeOpcode cfg ir = some .add ↔ ir = 0xA0 ∧ cfg.addFetchable = true) ∧
    (decodeOpcode cfg ir = some .hlt ↔ ir = 0x01)) ∧
  ((List.range 256).countP fun n => (decodeOpcode Config.spec (BitVec.ofNat 8 n)).isNone) = 251 ∧
  ((List.range 256).countP fun n => (decodeOpcode Config.withoutAdd (BitVec.ofNat 8 n)).isNone) = 252

/-- 30_encoding.md section 2: size = 1 + operand count; LDI and MUL take 3 bytes, PRN 2, HLT 1, and ADD 3 by the same
formula, which the spec marks as derived; the size is that of the encoding and a function of the opcode byte alone. -/
def Obligations.SizeIsOnePlusOperandCount : Prop :=
  (∀ i : Instr, i.size = 1 + i.operandBytes.length ∧ i.size = 1 + i.opcode.operandCount ∧
    (encode i).length = i.size) ∧
  (∀ i j : Instr, i.opcode.byte = j.opcode.byte → i.size = j.size) ∧
  (∀ a b : Byte, (Instr.ldi a b).size = 3 ∧ (Instr.mul a b).size = 3 ∧ (Instr.add a b).size = 3 ∧
    (Instr.prn a).size = 2 ∧ Instr.hlt.size = 1)

/-- 30_encoding.md section 6: the bytes of each listing in memory order; lying in memory from the pc up they run as that
instruction (ADD only when `ADD_FETCHABLE`, decision D1); and the first operand of MUL and ADD is both the first source
and the destination, the second operand a source only. -/
def Obligations.ListingBytesRunAsTheInstruction : Prop :=
  (∀ a b : Byte, encode (.ldi a b) = [0x82, a, b] ∧ encode (.prn a) = [0x47, a] ∧ encode (.mul a b) = [0xA2, a, b] ∧
    encode (.add a b) = [0xA0, a, b] ∧ encode .hlt = [0x01]) ∧
  (∀ (cfg : Config) (i : Instr) (s : State), s.enabled = true → i.Fetchable cfg → s.pc.toNat + i.size ≤ 256 →
    (∀ k, (h : k < (encode i).length) → s.mem.cell (s.pc.toNat + k) = (encode i)[k]) →
    stepWith cfg s = exec i s) ∧
  ∀ (a b : Byte) (r q : Fin 8) (s : State), a.toNat = r.val → b.toNat = q.val → s.pc.toNat + 3 ≤ 256 →
    ∃ t u, exec (.mul a b) s = .next t ∧ exec (.add a b) s = .next u ∧
      t.x = s.x.set r (BitVec.ofNat 8 (s.x[r].toNat * s.x[q].toNat % 256)) ∧
      u.x = s.x.set r (BitVec.ofNat 8 ((s.x[r].toNat + s.x[q].toNat) % 256)) ∧
      (q ≠ r → t.x[q] = s.x[q] ∧ u.x[q] = s.x[q])

/-! ### The step -/

/-- 40_engine_cycle.md section 1: when the bytes of memory from the pc up decode to instruction `i`, an enabled step
is exec of `i` at that state, with nothing added: exec itself moves the pc past the instruction. -/
def Obligations.StepRunsTheDecodedInstruction : Prop :=
  (∀ (cfg : Config) (s : State) (i : Instr) (rest : List Byte), s.enabled = true →
    decode cfg (s.mem.cell s.pc.toNat)
      ((List.range (255 - s.pc.toNat)).map fun k => s.mem.cell (s.pc.toNat + 1 + k)) = .ok (i, rest) →
    stepWith cfg s = exec i s) ∧
  ∀ s : State, step s = stepWith Config.spec s

/-- 40_engine_cycle.md section 1: the step, built from the decoder, the shared operations and one meaning per
instruction, is the one listing of that section, in every state and for either configuration (decisions D1 to D8). -/
def Obligations.StepIsTheListing : Prop :=
  ∀ (cfg : Config) (s : State), stepWith cfg s = .next (listing cfg s)

/-- 40_engine_cycle.md section 1, "the engine does nothing and no state element changes"; that the answer is a next
state is the model's choice (log 1). -/
def Obligations.StepNotEnabledChangesNothing : Prop :=
  ∀ (cfg : Config) (s : State), (s.running = false ∨ s.fault ≠ none) → stepWith cfg s = .next s

/-- The model stops nowhere: every instruction in every state, and every step, answers a next state; the errors of
60_exceptions.md are latched in it (log 2). That a step which is not enabled has an answer at all is the model's choice
(log 1). -/
def Obligations.EveryStepAnswersANextState : Prop :=
  (∀ (i : Instr) (s : State), ∃ t, exec i s = .next t) ∧
  ∀ (cfg : Config) (s : State), ∃ t, stepWith cfg s = .next t

/-! ### What each instruction does where it completes, and that it does nothing else -/

/-- R64: LDI writes its whole immediate byte, any of the 256, as it is, into the register its first operand byte
names, and the pc advances by 3; nothing else changes. The decoder takes the byte at `pc + 2` whole, and no other
instruction has an immediate: every other operand byte is a register operand. -/
def Obligations.LdiLoadsTheWholeImmediate : Prop :=
  (∀ (a imm : Byte) (r : Fin 8) (s : State), a.toNat = r.val → s.pc.toNat + 3 ≤ 255 →
    exec (.ldi a imm) s = .next { s with x := s.x.set r imm, pc := s.pc + 3 }) ∧
  (∀ (cfg : Config) (a imm : Byte) (bs : List Byte), decode cfg 0x82 (a :: imm :: bs) = .ok (.ldi a imm, bs)) ∧
  ∀ (i : Instr) (v : Byte), v ∈ i.operandBytes → v ∈ registerBytes i ∨ ∃ a, i = .ldi a v

/-- 42_print.md: PRN appends the register's value to the output stream and the pc advances by 2; no register
changes, nor anything else. -/
def Obligations.PrnEmitsTheRegister : Prop :=
  ∀ (a : Byte) (r : Fin 8) (s : State), a.toNat = r.val → s.pc.toNat + 2 ≤ 255 →
    exec (.prn a) s = .next { s with out := s.out ++ [s.x[r]], pc := s.pc + 2 }

/-- 43_alu.md section on MUL: the destination takes the product of the two registers modulo 256 (the square when
both operands name one register), and the pc advances by 3; nothing else changes. -/
def Obligations.MulWritesTheProduct : Prop :=
  ∀ (a b : Byte) (r q : Fin 8) (s : State), a.toNat = r.val → b.toNat = q.val → s.pc.toNat + 3 ≤ 255 →
    exec (.mul a b) s =
      .next { s with x := s.x.set r (BitVec.ofNat 8 (s.x[r].toNat * s.x[q].toNat % 256)), pc := s.pc + 3 }

/-- 43_alu.md section on ADD: the destination takes the sum of the two registers modulo 256 (the double when both
operands name one register), and the pc advances by 3; nothing else changes. -/
def Obligations.AddWritesTheSum : Prop :=
  ∀ (a b : Byte) (r q : Fin 8) (s : State), a.toNat = r.val → b.toNat = q.val → s.pc.toNat + 3 ≤ 255 →
    exec (.add a b) s =
      .next { s with x := s.x.set r (BitVec.ofNat 8 ((s.x[r].toNat + s.x[q].toNat) % 256)), pc := s.pc + 3 }

/-- 44_halt.md: HLT clears the running flag and the pc advances by 1, or stays at 255 (decision D4); it does nothing
else, at any address. -/
def Obligations.HltStopsTheRun : Prop :=
  ∀ s : State, exec .hlt s =
    .next { s with running := false, pc := if s.pc.toNat < 255 then s.pc + 1 else s.pc }

/-- R81: the pc takes `pc + size` in every instruction that executed where that is at most 255, HLT included; it is
the only write of the pc. -/
def Obligations.PcAdvancesByTheSize : Prop :=
  (∀ (i : Instr) (s : State), i.WellFormed → s.pc.toNat + i.size ≤ 255 →
    ∃ t, exec i s = .next t ∧ t.pc.toNat = s.pc.toNat + i.size) ∧
  (∀ (i : Instr) (s t : State), exec i s = .next t → t.pc ≠ s.pc →
    i.WellFormed ∧ t.pc.toNat = s.pc.toNat + i.size) ∧
  (∀ (cfg : Config) (s t : State), stepWith cfg s = .next t → t.pc ≠ s.pc →
    ∃ i, stepWith cfg s = exec i s ∧ s.mem.cell s.pc.toNat = i.opcode.byte ∧
      t.pc.toNat = s.pc.toNat + i.size)

/-! ### Taking a fault -/

/-- 40_engine_cycle.md section 5, decision D4: an instruction other than HLT whose last byte is at 255 takes effect,
leaves the pc, and latches MEM_BOUNDS_FETCH with address 256 and its own opcode byte. -/
def Obligations.InstructionEndingAt255TakesEffectAndFaults : Prop :=
  (∀ (a imm : Byte) (r : Fin 8) (s : State), a.toNat = r.val → s.pc.toNat = 253 →
    exec (.ldi a imm) s = .next { s with x := s.x.set r imm, fault := some ⟨.memBoundsFetch, 256, 0x82⟩ }) ∧
  (∀ (a : Byte) (r : Fin 8) (s : State), a.toNat = r.val → s.pc.toNat = 254 →
    exec (.prn a) s = .next { s with out := s.out ++ [s.x[r]], fault := some ⟨.memBoundsFetch, 256, 0x47⟩ }) ∧
  (∀ (a b : Byte) (r q : Fin 8) (s : State), a.toNat = r.val → b.toNat = q.val → s.pc.toNat = 253 →
    exec (.mul a b) s = .next { s with x := s.x.set r (BitVec.ofNat 8 (s.x[r].toNat * s.x[q].toNat % 256)), fault := some ⟨.memBoundsFetch, 256, 0xA2⟩ } ∧
    exec (.add a b) s = .next { s with x := s.x.set r (BitVec.ofNat 8 ((s.x[r].toNat + s.x[q].toNat) % 256)), fault := some ⟨.memBoundsFetch, 256, 0xA0⟩ })

/-- 40_engine_cycle.md section 3, decision D3: when an operand byte the opcode calls for lies above 255, an enabled
step latches MEM_BOUNDS_OPERAND with address 256 and the opcode byte and changes nothing else, whatever the operand
bytes are. So does exec alone of an instruction at such a pc: that exec tests the bounds itself is the model's choice
(log 7). -/
def Obligations.MissingOperandFaults : Prop :=
  (∀ (cfg : Config) (s : State) (op : Opcode), s.enabled = true →
    decodeOpcode cfg (s.mem.cell s.pc.toNat) = some op → 255 < s.pc.toNat + op.operandCount →
    stepWith cfg s = .next { s with fault := some ⟨.memBoundsOperand, 256, s.mem.cell s.pc.toNat⟩ }) ∧
  ∀ (i : Instr) (s : State), 256 < s.pc.toNat + i.size →
    exec i s = .next { s with fault := some ⟨.memBoundsOperand, 256, i.opcode.byte⟩ }

/-- 40_engine_cycle.md section 3, decision D2: an enabled step at a byte that is no opcode latches UNRECOGNIZED_OPCODE
with that address and that byte and changes nothing else. -/
def Obligations.UnrecognisedOpcodeFaults : Prop :=
  ∀ (cfg : Config) (s : State), s.enabled = true → decodeOpcode cfg (s.mem.cell s.pc.toNat) = none →
    stepWith cfg s =
      .next { s with fault := some ⟨.unrecognizedOpcode, s.pc.setWidth 9, s.mem.cell s.pc.toNat⟩ }

/-- 40_engine_cycle.md section 3, decisions D5 and D8: a register operand of 8 to 255 latches REG_BOUNDS with the
operand's address and the byte and changes nothing else; `a` is tested before `b`. -/
def Obligations.IllegalRegisterFaults : Prop :=
  (∀ (a b : Byte) (s : State), 7 < a.toNat → s.pc.toNat + 2 ≤ 255 →
    let t : State := { s with fault := some ⟨.regBounds, BitVec.ofNat 9 (s.pc.toNat + 1), a⟩ }
    exec (.ldi a b) s = .next t ∧ exec (.mul a b) s = .next t ∧ exec (.add a b) s = .next t) ∧
  (∀ (a : Byte) (s : State), 7 < a.toNat → s.pc.toNat + 1 ≤ 255 →
    exec (.prn a) s = .next { s with fault := some ⟨.regBounds, BitVec.ofNat 9 (s.pc.toNat + 1), a⟩ }) ∧
  (∀ (a b : Byte) (s : State), a.toNat ≤ 7 → 7 < b.toNat → s.pc.toNat + 2 ≤ 255 →
    let t : State := { s with fault := some ⟨.regBounds, BitVec.ofNat 9 (s.pc.toNat + 2), b⟩ }
    exec (.mul a b) s = .next t ∧ exec (.add a b) s = .next t)

/-- 60_exceptions.md section 3: a fault of any step leaves the pc, the running flag, the flags and the memory; one
other than MEM_BOUNDS_FETCH leaves every state element but the latch (decisions D4, D6). -/
def Obligations.FaultsArePrecise : Prop :=
  ∀ (cfg : Config) (s t : State) (f : FaultRecord), s.enabled = true → stepWith cfg s = .next t →
    t.fault = some f →
    t.pc = s.pc ∧ t.running = true ∧ t.fl = s.fl ∧ t.mem = s.mem ∧
    (f.cause ≠ .memBoundsFetch → t = { s with fault := some f }) ∧
    (f.cause = .memBoundsFetch → f.addr = 256 ∧ f.val = s.mem.cell s.pc.toNat)

/-- 30_encoding.md section 2, decision D1: the byte 0xA0 executes ADD when `ADD_FETCHABLE` and is an unrecognised
opcode when not. -/
def Obligations.AddFetchableDecidesTheByteA0 : Prop :=
  ∀ (cfg : Config) (s : State), s.enabled = true → s.mem.cell s.pc.toNat = 0xA0 →
    (cfg.addFetchable = true → s.pc.toNat ≤ 253 →
      stepWith cfg s = exec (.add (s.mem.cell (s.pc.toNat + 1)) (s.mem.cell (s.pc.toNat + 2))) s) ∧
    (cfg.addFetchable = false →
      stepWith cfg s = .next { s with fault := some ⟨.unrecognizedOpcode, s.pc.setWidth 9, 0xA0⟩ })

/-! ### Frames: what every instruction leaves alone -/

/-- 10_state.md section 1, the Writes column: an instruction changes no register but the one its destination operand
names; PRN and HLT change none. It holds in every state, the faulting ones included. -/
def Obligations.OnlyTheDestinationRegisterChanges : Prop :=
  ∀ (i : Instr) (s t : State) (q : Fin 8), exec i s = .next t →
    (∀ a, destByte i = some a → a.toNat ≠ q.val) → t.x[q] = s.x[q]

/-- 10_state.md section 1, the Reads column: a register that no operand of the instruction names is neither read nor
written: whatever it holds, everything else comes out the same. -/
def Obligations.UnnamedRegistersAreNotRead : Prop :=
  ∀ (i : Instr) (s t : State) (q : Fin 8) (v : Byte), exec i s = .next t →
    (∀ a ∈ registerBytes i, a.toNat ≠ q.val) →
    exec i { s with x := s.x.set q v } = .next { t with x := t.x.set q v }

/-- 10_state.md section 1: no register is special to any instruction, register 6 included. Renaming the registers
of the state and of the operands by any permutation renames the outcome. -/
def Obligations.RegistersAreInterchangeable : Prop :=
  ∀ (new old : Fin 8 → Fin 8), (∀ r, new (old r) = r) → (∀ r, old (new r) = r) →
    ∀ (s : State) (r q : Fin 8) (imm : Byte),
      (∀ t, exec (.ldi (regByte r) imm) s = .next t →
        exec (.ldi (regByte (new r)) imm) (renamed old s) = .next (renamed old t)) ∧
      (∀ t, exec (.prn (regByte r)) s = .next t →
        exec (.prn (regByte (new r))) (renamed old s) = .next (renamed old t)) ∧
      (∀ t, exec (.mul (regByte r) (regByte q)) s = .next t →
        exec (.mul (regByte (new r)) (regByte (new q))) (renamed old s) = .next (renamed old t)) ∧
      (∀ t, exec (.add (regByte r) (regByte q)) s = .next t →
        exec (.add (regByte (new r)) (regByte (new q))) (renamed old s) = .next (renamed old t)) ∧
      (∀ t, exec .hlt s = .next t → exec .hlt (renamed old s) = .next (renamed old t))

/-- R93: no instruction, and no step, reads or writes the flags register: it comes out as it went in, and whatever it
holds, everything else comes out the same. -/
def Obligations.FlagsAreNeitherReadNorWritten : Prop :=
  (∀ (i : Instr) (s t : State) (v : Byte), exec i s = .next t →
    t.fl = s.fl ∧ exec i { s with fl := v } = .next { t with fl := v }) ∧
  (∀ (cfg : Config) (s t : State) (v : Byte), stepWith cfg s = .next t →
    t.fl = s.fl ∧ stepWith cfg { s with fl := v } = .next { t with fl := v })

/-- 20_memory.md sections 2 and 4: every byte of memory reads after any instruction, and after any step, as it read
before; no form of any instruction stores. -/
def Obligations.NoInstructionStores : Prop :=
  (∀ (i : Instr) (s t : State), exec i s = .next t → ∀ a, memRead t.mem a = memRead s.mem a) ∧
  (∀ (cfg : Config) (s t : State), stepWith cfg s = .next t →
    t.mem = s.mem ∧ ∀ a, memRead t.mem a = memRead s.mem a)

/-- R42: a step reads the opcode byte at the pc and the operand bytes the opcode calls for, and no other byte of
memory; it writes none. Replacing every other byte changes nothing in the outcome. -/
def Obligations.StepReadsOnlyTheInstructionBytes : Prop :=
  ∀ (cfg : Config) (s t : State) (m : Memory),
    (∀ k, k ≤ operandsOf cfg (s.mem.cell s.pc.toNat) → s.pc.toNat + k ≤ 255 →
      m.cell (s.pc.toNat + k) = s.mem.cell (s.pc.toNat + k)) →
    stepWith cfg s = .next t →
    t.mem = s.mem ∧ stepWith cfg { s with mem := m } = .next { t with mem := m }

/-- 42_print.md: only PRN writes the output stream, and only by appending; a step appends at most one value, and what
was emitted stays. -/
def Obligations.OutputOnlyGrowsAndOnlyByPrn : Prop :=
  (∀ (i : Instr) (s t : State), exec i s = .next t → (∀ a, i ≠ .prn a) → t.out = s.out) ∧
  (∀ (a : Byte) (s t : State), exec (.prn a) s = .next t →
    t.out = s.out ∨ ∃ r : Fin 8, r.val = a.toNat ∧ t.out = s.out ++ [s.x[r]]) ∧
  (∀ (cfg : Config) (s t : State), stepWith cfg s = .next t → t.out = s.out ∨ ∃ v, t.out = s.out ++ [v])

/-- 10_state.md section 3: HLT clears the running flag and nothing else writes it, a fault included (decision D6). -/
def Obligations.OnlyHltClearsRunning : Prop :=
  (∀ (i : Instr) (s t : State), exec i s = .next t → t.running = if i = .hlt then false else s.running) ∧
  (∀ (cfg : Config) (s t : State), stepWith cfg s = .next t → t.running ≠ s.running →
    s.enabled = true ∧ s.mem.cell s.pc.toNat = 0x01 ∧ t.running = false ∧ t.fault = none)

/-! ### The whole machine -/

/-- 10_state.md section 2: the pc never decreases, and it increases in every step that leaves the run going. -/
def Obligations.PcNeverDecreases : Prop :=
  ∀ (cfg : Config) (s t : State), stepWith cfg s = .next t →
    s.pc.toNat ≤ t.pc.toNat ∧ (t.enabled = true → s.pc.toNat < t.pc.toNat)

/-- The invariant of the machine holds at reset. -/
def Obligations.InvariantHoldsAtReset : Prop :=
  ∀ cfg : Config, Inv cfg State.reset

/-- Every step keeps the invariant of the machine: the memory stays canonical (log 5), `fl` stays 0, a fault and a
halt exclude each other, and a latched fault or a halt is explained by the bytes at the pc (10_state.md, 60_exceptions.md
sections 1 and 3). -/
def Obligations.EveryStepKeepsTheInvariant : Prop :=
  ∀ (cfg : Config) (s t : State), Inv cfg s → stepWith cfg s = .next t → Inv cfg t

/-- 40_engine_cycle.md section 6: from every state, a run has ended after `256 - pc` steps, so within 256, a bound the
spec marks as derived; from a state with the invariant it ends in a clean halt or in a faulted state. That the machine
answers the same state for steps counted beyond the end is the model's choice (log 1). -/
def Obligations.EveryRunEnds : Prop :=
  ∀ (cfg : Config) (s : State) (n : Nat), 256 - s.pc.toNat ≤ n →
    ∃ t : State, (coreWith cfg).run n s = .next t ∧ t.enabled = false ∧
      (Inv cfg s → t.cleanHalt = true ∨ t.faulted = true)

/-! ### Reset and load -/

/-- 10_state.md section 6: the state after reset, every element (that the latch and the output start empty is
decision D19), whatever the state before. -/
def Obligations.ResetGivesEveryElementItsValue : Prop :=
  ∀ s : State,
    (∀ r : Fin 8, s.resetEvent.x[r] = if r = 6 then 0xF4 else 0) ∧
    s.resetEvent.pc = 0 ∧ s.resetEvent.fl = 0 ∧ s.resetEvent.running = true ∧ s.resetEvent.fault = none ∧
    s.resetEvent.out = [] ∧ (∀ a, a ≤ 255 → memRead s.resetEvent.mem a = some 0) ∧
    s.resetEvent = State.reset

/-- 70_reset_and_hazards.md section 2: the launch state of a program of at most 256 bytes: the reset values, the program's
bytes from address 0 up, and zero past them; it has the invariant. -/
def Obligations.LaunchStateHoldsTheProgram : Prop :=
  ∀ (cfg : Config) (prog : List Byte), prog.length ≤ 256 →
    ∃ s, launch prog = .next s ∧ s = { State.reset with mem := s.mem } ∧
      (∀ k, (h : k < prog.length) → memRead s.mem k = some prog[k]) ∧
      (∀ k, prog.length ≤ k → k ≤ 255 → memRead s.mem k = some 0) ∧ Inv cfg s

/-- 70_reset_and_hazards.md section 2, decision D13: a longer program has no launch state; its byte 256 is refused (log
10). -/
def Obligations.ProgramThatDoesNotFitIsRefused : Prop :=
  ∀ prog : List Byte, 256 < prog.length → launch prog = .refused (.loadBounds 256)

/-- 20_memory.md section 2, 10_state.md section 7, decision D20: before start (the reset state but for its memory) a
write at the load port stores the value modulo 256 in that cell, leaves every other cell and every other field, and
keeps the canonical form (log 5), and a request outside 0 to 255 is refused; in every other state the port is closed and
refuses every request. That the phase is read off the seven fields, with no bit for start, is the model's choice (log
9). -/
def Obligations.LoadPortWritesOneCell : Prop :=
  (∀ (s : State) (a v : Nat), s = { State.reset with mem := s.mem } → s.mem.wf = true → a ≤ 255 →
    ∃ m, s.loadWrite a v = .next { s with mem := m } ∧ m.wf = true ∧
      State.loadRead { s with mem := m } a = .ok (BitVec.ofNat 8 v) ∧
      ∀ b, b ≠ a → State.loadRead { s with mem := m } b = s.loadRead b) ∧
  (∀ (s : State) (a v : Nat), s = { State.reset with mem := s.mem } → 255 < a →
    s.loadWrite a v = .refused (.loadBounds a) ∧ s.loadRead a = .error (.loadBounds a)) ∧
  ∀ (s : State) (a v : Nat), s ≠ { State.reset with mem := s.mem } →
    s.loadWrite a v = .refused .loadClosed ∧ s.loadRead a = .error .loadClosed

/-- 70_reset_and_hazards.md sections 1 and 3: whatever the state, once a step has been taken, in the run or after it, the
load port is closed and refuses every request. (That a step which is not enabled
answers at all is log 1; how the phase is read off the state is log 9.) -/
def Obligations.LoadPortIsClosedByTheFirstStep : Prop :=
  ∀ (cfg : Config) (s t : State), stepWith cfg s = .next t →
    ∀ a v : Nat, t.loadWrite a v = .refused .loadClosed ∧ t.loadRead a = .error .loadClosed

/-- 70_reset_and_hazards.md section 1, decision D18: a cleanly halted or a faulted machine is frozen: no step changes it
(that it answers is log 1) and the load port is closed (log 9); the reset event alone leaves it, for the reset state, its
memory cleared, the step enabled and the load port open again. -/
def Obligations.EndedMachineIsFrozenUntilReset : Prop :=
  ∀ (cfg : Config) (s : State), (s.running = false ∨ s.fault ≠ none) →
    stepWith cfg s = .next s ∧
    (∀ a v : Nat, s.loadWrite a v = .refused .loadClosed ∧ s.loadRead a = .error .loadClosed) ∧
    s.resetEvent = State.reset ∧ s.resetEvent.enabled = true ∧
    ∀ a : Nat, a ≤ 255 → s.resetEvent.loadRead a = .ok 0

/-- The model's own form of memory (log 5): two canonical memories that agree in the 256 cells are the same data. -/
def Obligations.EqualCellsAreEqualMemories : Prop :=
  ∀ m m' : Memory, m.wf = true → m'.wf = true → (∀ a, a ≤ 255 → memRead m a = memRead m' a) → m = m'

/-- How a single instruction is placed for a step (log 8): stored where an enabled step fetches, it is what the
decoder reads and what the step runs. -/
def Obligations.PlacedInstructionIsTheOneRun : Prop :=
  ∀ (i : Instr) (s : State), s.enabled = true → s.mem.wf = true → s.pc.toNat + i.size ≤ 256 →
    decodeTableWord (8 * i.size) (tableWord i) = some i ∧
    step (s.withFetchWord (8 * i.size) (tableWord i)) = exec i (s.withFetchWord (8 * i.size) (tableWord i))

/-! ### The output primitive, the ALU and the arithmetic -/

/-- R86: `emit(v)` appends one value to the output stream, always, and does nothing else. -/
def Obligations.EmitAppendsOneValue : Prop :=
  ∀ (s : State) (v : Byte), s.emit v = { s with out := s.out ++ [v] }

/-- R89: the ALU reads both registers before it writes the first, writes the sum or the product modulo 256 there,
touches no other register and no other state, and has no third operation. -/
def Obligations.AluWritesOneRegister : Prop :=
  (∀ (s : State) (a b : Fin 8),
    ((s.alu .add a b).x[a]).toNat = (s.x[a].toNat + s.x[b].toNat) % 256 ∧
    ((s.alu .mul a b).x[a]).toNat = (s.x[a].toNat * s.x[b].toNat) % 256 ∧
    ∀ o : AluOp, (∀ q, q ≠ a → (s.alu o a b).x[q] = s.x[q]) ∧ s.alu o a b = { s with x := (s.alu o a b).x }) ∧
  ∀ o : AluOp, o = .add ∨ o = .mul

/-- 43_alu.md, the section on arithmetic laws: both operations are exact modulo 256, commutative and associative, with
identities 0 and 1; MUL distributes over ADD; and reading the bytes as two's-complement numbers gives the same
results (the laws are marked in the spec as derived). -/
def Obligations.ArithmeticIsThatOfTheIntegersModulo256 : Prop :=
  ∀ u v w : Byte,
    (aluResult .add u v).toNat = (u.toNat + v.toNat) % 256 ∧
    (aluResult .mul u v).toNat = (u.toNat * v.toNat) % 256 ∧
    aluResult .add u v = aluResult .add v u ∧ aluResult .mul u v = aluResult .mul v u ∧
    aluResult .add (aluResult .add u v) w = aluResult .add u (aluResult .add v w) ∧
    aluResult .mul (aluResult .mul u v) w = aluResult .mul u (aluResult .mul v w) ∧
    aluResult .add u 0 = u ∧ aluResult .mul u 1 = u ∧
    aluResult .mul u (aluResult .add v w) = aluResult .add (aluResult .mul u v) (aluResult .mul u w) ∧
    ((aluResult .add u v).toNat : Int) = (u.toInt + v.toInt) % 256 ∧
    ((aluResult .mul u v).toNat : Int) = (u.toInt * v.toInt) % 256

/-- 43_alu.md, the section on MUL, "MUL is commutative": with the operands exchanged it computes the same number and
writes it to the other register. -/
def Obligations.MulOperandsCommute : Prop :=
  ∀ (a b : Byte) (r q : Fin 8) (s : State), a.toNat = r.val → b.toNat = q.val → s.pc.toNat + 3 ≤ 255 →
    ∃ t u, exec (.mul a b) s = .next t ∧ exec (.mul b a) s = .next u ∧
      t.x[r] = u.x[q] ∧ (t.x[r]).toNat = s.x[r].toNat * s.x[q].toNat % 256

/-- 41_load_immediate.md, the property the source states: LDI of a value into a register and then PRN of that
register outputs exactly that value, as decimal text and a line break (decision D9). -/
def Obligations.LdiThenPrnPrintsTheValue : Prop :=
  ∀ (cfg : Config) (a v : Byte) (s : State), a.toNat ≤ 7 → s.pc.toNat + 5 ≤ 255 →
    ∃ t u, exec (.ldi a v) s = .next t ∧ exec (.prn a) t = .next u ∧ u.out = s.out ++ [v] ∧
      outputText cfg u.out = outputText cfg s.out ++ dec v ++ cfg.lineBreak

/-- 42_print.md, decision D9: the numeral of a byte has one to three characters `0` to `9`, no leading zero, and the
byte's value; the text of a stream is each value's numeral and the line break, in order. -/
def Obligations.OutputTextIsPlainDecimal : Prop :=
  (∀ v : Byte, 1 ≤ (dec v).length ∧ (dec v).length ≤ 3 ∧
    (∀ c ∈ dec v, 48 ≤ c.toNat ∧ c.toNat ≤ 57) ∧
    (dec v).foldl (fun n c => 10 * n + (c.toNat - 48)) 0 = v.toNat ∧
    ((dec v).head? = some '0' → v = 0 ∧ dec v = ['0'])) ∧
  (∀ cfg : Config, outputText cfg [] = [] ∧
    ∀ (out : List Byte) (v : Byte), outputText cfg (out ++ [v]) = outputText cfg out ++ dec v ++ cfg.lineBreak) ∧
  Config.spec.lineBreak = ['\n']
end

