-- ==== Sys2Proof/Laws/Decode.lean ====
section
/-! SUPPORT. The decoder and the encoder, row by row. -/

namespace Sys2Proof

/-- Each opcode byte decodes to its row, ADD only when `ADD_FETCHABLE` (R62, R75). -/
theorem decodeOpcode_byte (cfg : Config) (op : Opcode) (h : op = .add → cfg.addFetchable = true) :
    decodeOpcode cfg op.byte = some op := by
  cases op <;> simp_all [decodeOpcode, Opcode.byte]

/-- A row is decoded from its own byte only (R60). -/
theorem decodeOpcode_some {cfg : Config} {ir : Byte} {op : Opcode} (h : decodeOpcode cfg ir = some op) :
    ir = op.byte ∧ (op = .add → cfg.addFetchable = true) := by
  unfold decodeOpcode at h
  split at h
  · cases h; exact ⟨‹_›, nofun⟩
  split at h
  · cases h; exact ⟨‹_›, nofun⟩
  split at h
  · cases h; exact ⟨‹_›, nofun⟩
  split at h
  · cases h; exact ⟨(‹_ ∧ _›).1, fun _ => (‹_ ∧ _›).2⟩
  split at h
  · cases h; exact ⟨‹_›, nofun⟩
  · cases h

theorem encode_length (i : Instr) : (encode i).length = i.size := by
  cases i <;> rfl

/-- What the decoder answers for an instruction: its bytes were the instruction's encoding. -/
theorem decode_ok {cfg : Config} {ir : Byte} {bs rest : List Byte} {i : Instr}
    (h : decode cfg ir bs = .ok (i, rest)) :
    decodeOpcode cfg ir = some i.opcode ∧ bs = i.operandBytes ++ rest := by
  unfold decode at h
  split at h <;> simp_all
  all_goals
    obtain ⟨rfl, rfl⟩ := h
    exact ⟨rfl, rfl⟩

/-- The decoder rejects a byte that is no opcode, and nothing else, as unrecognised. -/
theorem decode_unrecognised {cfg : Config} {ir : Byte} {bs : List Byte} :
    decode cfg ir bs = .error .unrecognisedOpcode ↔ decodeOpcode cfg ir = none := by
  unfold decode
  split <;> simp_all

/-- A missing operand byte is reported by its place. -/
theorem decode_missing {cfg : Config} {ir : Byte} {bs : List Byte} {k : Nat}
    (h : decode cfg ir bs = .error (.operandMissing k)) :
    ∃ op, decodeOpcode cfg ir = some op ∧ bs.length < op.operandCount ∧ k = bs.length + 1 := by
  unfold decode at h
  split at h <;> simp_all
  rename_i bs _ _ op _ _ _ _ _ _
  subst h
  cases op
  · rcases bs with _ | ⟨a, _ | ⟨b, bs⟩⟩ <;> simp_all [Opcode.operandCount]
  · rcases bs with _ | ⟨a, bs⟩ <;> simp_all [Opcode.operandCount]
  · rcases bs with _ | ⟨a, _ | ⟨b, bs⟩⟩ <;> simp_all [Opcode.operandCount]
  · rcases bs with _ | ⟨a, _ | ⟨b, bs⟩⟩ <;> simp_all [Opcode.operandCount]
  · simp_all

end Sys2Proof
end

