-- ==== Sys2Proof/Laws/State.lean ====
section
/-! SUPPORT. One lemma per field per update of State, so that no proof unfolds a record update. -/

namespace Sys2Proof.Machine

variable (s : State)

/-! ### `State.writeReg` -/

@[simp] theorem writeReg_x (r : Fin 8) (v : Byte) : (s.writeReg r v).x = s.x.set r v := rfl
@[simp] theorem writeReg_pc (r : Fin 8) (v : Byte) : (s.writeReg r v).pc = s.pc := rfl
@[simp] theorem writeReg_fl (r : Fin 8) (v : Byte) : (s.writeReg r v).fl = s.fl := rfl
@[simp] theorem writeReg_running (r : Fin 8) (v : Byte) : (s.writeReg r v).running = s.running := rfl
@[simp] theorem writeReg_fault (r : Fin 8) (v : Byte) : (s.writeReg r v).fault = s.fault := rfl
@[simp] theorem writeReg_mem (r : Fin 8) (v : Byte) : (s.writeReg r v).mem = s.mem := rfl
@[simp] theorem writeReg_out (r : Fin 8) (v : Byte) : (s.writeReg r v).out = s.out := rfl

/-! ### `State.setPc` -/

@[simp] theorem setPc_x (p : Byte) : (s.setPc p).x = s.x := rfl
@[simp] theorem setPc_pc (p : Byte) : (s.setPc p).pc = p := rfl
@[simp] theorem setPc_fl (p : Byte) : (s.setPc p).fl = s.fl := rfl
@[simp] theorem setPc_running (p : Byte) : (s.setPc p).running = s.running := rfl
@[simp] theorem setPc_fault (p : Byte) : (s.setPc p).fault = s.fault := rfl
@[simp] theorem setPc_mem (p : Byte) : (s.setPc p).mem = s.mem := rfl
@[simp] theorem setPc_out (p : Byte) : (s.setPc p).out = s.out := rfl

/-! ### `State.emit` -/

@[simp] theorem emit_x (v : Byte) : (s.emit v).x = s.x := rfl
@[simp] theorem emit_pc (v : Byte) : (s.emit v).pc = s.pc := rfl
@[simp] theorem emit_fl (v : Byte) : (s.emit v).fl = s.fl := rfl
@[simp] theorem emit_running (v : Byte) : (s.emit v).running = s.running := rfl
@[simp] theorem emit_fault (v : Byte) : (s.emit v).fault = s.fault := rfl
@[simp] theorem emit_mem (v : Byte) : (s.emit v).mem = s.mem := rfl
@[simp] theorem emit_out (v : Byte) : (s.emit v).out = s.out ++ [v] := rfl

/-! ### `State.stop` -/

@[simp] theorem stop_x : (s.stop).x = s.x := rfl
@[simp] theorem stop_pc : (s.stop).pc = s.pc := rfl
@[simp] theorem stop_fl : (s.stop).fl = s.fl := rfl
@[simp] theorem stop_running : (s.stop).running = false := rfl
@[simp] theorem stop_fault : (s.stop).fault = s.fault := rfl
@[simp] theorem stop_mem : (s.stop).mem = s.mem := rfl
@[simp] theorem stop_out : (s.stop).out = s.out := rfl

/-! ### `State.setMem` -/

@[simp] theorem setMem_x (m : Memory) : (s.setMem m).x = s.x := rfl
@[simp] theorem setMem_pc (m : Memory) : (s.setMem m).pc = s.pc := rfl
@[simp] theorem setMem_fl (m : Memory) : (s.setMem m).fl = s.fl := rfl
@[simp] theorem setMem_running (m : Memory) : (s.setMem m).running = s.running := rfl
@[simp] theorem setMem_fault (m : Memory) : (s.setMem m).fault = s.fault := rfl
@[simp] theorem setMem_mem (m : Memory) : (s.setMem m).mem = m := rfl
@[simp] theorem setMem_out (m : Memory) : (s.setMem m).out = s.out := rfl

/-! ### `State.latch` -/

@[simp] theorem latch_x (f : FaultRecord) : (s.latch f).x = s.x := rfl
@[simp] theorem latch_pc (f : FaultRecord) : (s.latch f).pc = s.pc := rfl
@[simp] theorem latch_fl (f : FaultRecord) : (s.latch f).fl = s.fl := rfl
@[simp] theorem latch_running (f : FaultRecord) : (s.latch f).running = s.running := rfl
@[simp] theorem latch_fault (f : FaultRecord) : (s.latch f).fault = some f := rfl
@[simp] theorem latch_mem (f : FaultRecord) : (s.latch f).mem = s.mem := rfl
@[simp] theorem latch_out (f : FaultRecord) : (s.latch f).out = s.out := rfl

/-! ### `State.raise` -/

@[simp] theorem raise_x (c : FaultCause) (k : Nat) (v : Byte) : (s.raise c k v).x = s.x := rfl
@[simp] theorem raise_pc (c : FaultCause) (k : Nat) (v : Byte) : (s.raise c k v).pc = s.pc := rfl
@[simp] theorem raise_fl (c : FaultCause) (k : Nat) (v : Byte) : (s.raise c k v).fl = s.fl := rfl
@[simp] theorem raise_running (c : FaultCause) (k : Nat) (v : Byte) : (s.raise c k v).running = s.running := rfl
@[simp] theorem raise_fault (c : FaultCause) (k : Nat) (v : Byte) : (s.raise c k v).fault = some (s.faultAt c k v) := rfl
@[simp] theorem raise_mem (c : FaultCause) (k : Nat) (v : Byte) : (s.raise c k v).mem = s.mem := rfl
@[simp] theorem raise_out (c : FaultCause) (k : Nat) (v : Byte) : (s.raise c k v).out = s.out := rfl

/-! ### `State.alu` -/

@[simp] theorem alu_x (o : AluOp) (a b : Fin 8) : (s.alu o a b).x = s.x.set a (aluResult o (s.readReg a) (s.readReg b)) := rfl
@[simp] theorem alu_pc (o : AluOp) (a b : Fin 8) : (s.alu o a b).pc = s.pc := rfl
@[simp] theorem alu_fl (o : AluOp) (a b : Fin 8) : (s.alu o a b).fl = s.fl := rfl
@[simp] theorem alu_running (o : AluOp) (a b : Fin 8) : (s.alu o a b).running = s.running := rfl
@[simp] theorem alu_fault (o : AluOp) (a b : Fin 8) : (s.alu o a b).fault = s.fault := rfl
@[simp] theorem alu_mem (o : AluOp) (a b : Fin 8) : (s.alu o a b).mem = s.mem := rfl
@[simp] theorem alu_out (o : AluOp) (a b : Fin 8) : (s.alu o a b).out = s.out := rfl

/-! ### Reading a register -/

@[simp] theorem readReg_writeReg_same (r : Fin 8) (v : Byte) : (s.writeReg r v).readReg r = v := by
  simp [State.readReg]

@[simp] theorem readReg_writeReg_other (r q : Fin 8) (v : Byte) (h : q ≠ r) :
    (s.writeReg r v).readReg q = s.readReg q := by
  have : r.val ≠ q.val := fun e => h (Fin.ext e.symm)
  simp [State.readReg, this]

@[simp] theorem readReg_setPc (p : Byte) (r : Fin 8) : (s.setPc p).readReg r = s.readReg r := rfl
@[simp] theorem readReg_emit (v : Byte) (r : Fin 8) : (s.emit v).readReg r = s.readReg r := rfl
@[simp] theorem readReg_stop (r : Fin 8) : s.stop.readReg r = s.readReg r := rfl
@[simp] theorem readReg_setMem (m : Memory) (r : Fin 8) : (s.setMem m).readReg r = s.readReg r := rfl
@[simp] theorem readReg_latch (f : FaultRecord) (r : Fin 8) : (s.latch f).readReg r = s.readReg r := rfl
@[simp] theorem readReg_raise (c : FaultCause) (k : Nat) (v : Byte) (r : Fin 8) :
    (s.raise c k v).readReg r = s.readReg r := rfl

/-! ### Addresses and instruction bytes depend on the pc and the memory alone -/

@[simp] theorem addrOf_writeReg (r : Fin 8) (v : Byte) (k : Nat) : (s.writeReg r v).addrOf k = s.addrOf k := rfl
@[simp] theorem addrOf_emit (v : Byte) (k : Nat) : (s.emit v).addrOf k = s.addrOf k := rfl
@[simp] theorem addrOf_stop (k : Nat) : s.stop.addrOf k = s.addrOf k := rfl
@[simp] theorem addrOf_setMem (m : Memory) (k : Nat) : (s.setMem m).addrOf k = s.addrOf k := rfl
@[simp] theorem addrOf_latch (f : FaultRecord) (k : Nat) : (s.latch f).addrOf k = s.addrOf k := rfl
@[simp] theorem addrOf_alu (o : AluOp) (a b : Fin 8) (k : Nat) : (s.alu o a b).addrOf k = s.addrOf k := rfl

theorem addrOf_zero_le : s.addrOf 0 ≤ 255 := by
  have := s.pc.isLt
  simp [State.addrOf]
  omega

theorem faultAt_addr (c : FaultCause) (k : Nat) (v : Byte) (h : k ≤ 3) :
    (s.faultAt c k v).addr.toNat = s.pc.toNat + k := by
  have := s.pc.isLt
  simp [State.faultAt, State.addrOf]
  omega

@[simp] theorem faultAt_cause (c : FaultCause) (k : Nat) (v : Byte) : (s.faultAt c k v).cause = c := rfl
@[simp] theorem faultAt_val (c : FaultCause) (k : Nat) (v : Byte) : (s.faultAt c k v).val = v := rfl

end Sys2Proof.Machine
end

