-- ==== Sys2Proof/Laws/Memory.lean ====
section
/-! SUPPORT. Reading after writing, and that every memory operation keeps the canonical form (log 5). -/

namespace Sys2Proof.Machine

@[simp] theorem cell_nil (a : Nat) : Memory.cell [] a = 0 := rfl

theorem cell_cons (k : Nat) (v : Byte) (m : Memory) (a : Nat) :
    Memory.cell ((k, v) :: m) a = if k = a then v else Memory.cell m a := rfl

@[simp] theorem wfFrom_nil (lo : Nat) : Memory.wfFrom lo [] = true := rfl

@[simp] theorem wfFrom_cons (lo k : Nat) (v : Byte) (m : Memory) :
    Memory.wfFrom lo ((k, v) :: m) = true ↔
      lo ≤ k ∧ k ≤ 255 ∧ v ≠ 0 ∧ Memory.wfFrom (k + 1) m = true := by
  simp [Memory.wfFrom, and_assoc]

theorem wfFrom_mono {m : Memory} {lo lo' : Nat} (h : Memory.wfFrom lo m = true) (hl : lo' ≤ lo) :
    Memory.wfFrom lo' m = true := by
  cases m with
  | nil => rfl
  | cons c m =>
    obtain ⟨k, v⟩ := c
    rw [wfFrom_cons] at h ⊢
    exact ⟨hl.trans h.1, h.2⟩

/-- A cell below the first listed address holds 0. -/
theorem cell_below {m : Memory} {lo a : Nat} (h : Memory.wfFrom lo m = true) (ha : a < lo) :
    m.cell a = 0 := by
  induction m generalizing lo with
  | nil => rfl
  | cons c m ih =>
    obtain ⟨k, v⟩ := c
    rw [wfFrom_cons] at h
    rw [cell_cons, if_neg (by omega)]
    exact ih h.2.2.2 (by omega)

/-- A cell above 255 holds 0: there is no such cell (R41). -/
theorem cell_above {m : Memory} {lo a : Nat} (h : Memory.wfFrom lo m = true) (ha : 255 < a) :
    m.cell a = 0 := by
  induction m generalizing lo with
  | nil => rfl
  | cons c m ih =>
    obtain ⟨k, v⟩ := c
    rw [wfFrom_cons] at h
    rw [cell_cons, if_neg (by omega)]
    exact ih h.2.2.2

theorem put_keeps_wfFrom {m : Memory} {lo a : Nat} (v : Byte) (h : Memory.wfFrom lo m = true)
    (hlo : lo ≤ a) (ha : a ≤ 255) : Memory.wfFrom lo (m.put a v) = true := by
  induction m generalizing lo with
  | nil => unfold Memory.put; split <;> simp_all
  | cons c m ih =>
    obtain ⟨k, w⟩ := c
    have h' := h
    rw [wfFrom_cons] at h'
    obtain ⟨h1, h2, h3, h4⟩ := h'
    unfold Memory.put
    split
    · split
      · exact h
      · rw [wfFrom_cons, wfFrom_cons]
        exact ⟨hlo, ha, ‹_›, by omega, h2, h3, h4⟩
    · split
      · split
        · exact wfFrom_mono h4 (by omega)
        · rw [wfFrom_cons]
          subst a
          exact ⟨h1, h2, ‹_›, h4⟩
      · rw [wfFrom_cons]
        exact ⟨h1, h2, h3, ih h4 (by omega)⟩

/-- A write keeps the canonical form. -/
theorem put_keeps_wf {m : Memory} {a : Nat} (v : Byte) (h : m.wf = true) (ha : a ≤ 255) :
    (m.put a v).wf = true :=
  put_keeps_wfFrom v h (Nat.zero_le a) ha

/-- A write leaves every other cell alone. -/
theorem cell_put_other (m : Memory) {a b : Nat} (v : Byte) (h : b ≠ a) : (m.put a v).cell b = m.cell b := by
  induction m with
  | nil => unfold Memory.put; split <;> simp [cell_cons, h.symm]
  | cons c m ih =>
    obtain ⟨k, w⟩ := c
    unfold Memory.put
    split
    · split
      · rfl
      · rw [cell_cons, if_neg h.symm]
    · split
      · subst a
        split
        · rw [cell_cons, if_neg h.symm]
        · rw [cell_cons, cell_cons, if_neg h.symm, if_neg h.symm]
      · rw [cell_cons, cell_cons, ih]

theorem cell_put_same_from {m : Memory} {lo a : Nat} (v : Byte) (h : Memory.wfFrom lo m = true) :
    (m.put a v).cell a = v := by
  induction m generalizing lo with
  | nil => unfold Memory.put; split <;> simp_all [cell_cons]
  | cons c m ih =>
    obtain ⟨k, w⟩ := c
    have h' := h
    rw [wfFrom_cons] at h'
    obtain ⟨h1, h2, h3, h4⟩ := h'
    unfold Memory.put
    split
    · split
      · rw [cell_cons, if_neg (by omega), cell_below h4 (by omega)]
        exact Eq.symm ‹_›
      · rw [cell_cons, if_pos rfl]
    · split
      · split
        · rw [cell_below h4 (by omega)]
          exact Eq.symm ‹_›
        · rw [cell_cons, if_pos rfl]
      · rw [cell_cons, if_neg (by omega)]
        exact ih h4

/-- A read after a write to the same cell gives the value written. -/
theorem cell_put_same {m : Memory} {a : Nat} (v : Byte) (h : m.wf = true) : (m.put a v).cell a = v :=
  cell_put_same_from v h

/-- All that MemWrite can do (R46). -/
theorem memWrite_spec {m m' : Memory} {a v : Nat} (h : memWrite m a v = some m') :
    a ≤ 255 ∧ m' = m.put a (BitVec.ofNat 8 v) := by
  unfold memWrite at h
  split at h
  · exact ⟨‹_›, by simpa using h.symm⟩
  · cases h

/-! ### The load port -/

theorem loadOpen_iff (s : State) : s.loadOpen = true ↔ s = State.reset.setMem s.mem := by
  simp [State.loadOpen]

theorem loadOpen_reset : State.reset.loadOpen = true := (loadOpen_iff _).2 rfl

/-- A write through the port leaves it open: the host may write "any number of times" (R37). -/
theorem loadOpen_setMem {s : State} (m : Memory) (h : s.loadOpen = true) : (s.setMem m).loadOpen = true := by
  rw [loadOpen_iff] at h ⊢
  rw [h]
  rfl

/-- An open port is that of a machine that has not stepped: it is enabled, at address 0. -/
theorem loadOpen_launch {s : State} (h : s.loadOpen = true) : s.enabled = true ∧ s.pc = 0 := by
  rw [(loadOpen_iff s).1 h]
  exact ⟨rfl, rfl⟩

theorem loadWrite_open {s : State} {a : Nat} (v : Nat) (h : s.loadOpen = true) (ha : a ≤ 255) :
    s.loadWrite a v = .next (s.setMem (s.mem.put a (BitVec.ofNat 8 v))) := by
  simp [State.loadWrite, memWrite, h, ha]

theorem loadRead_open {s : State} {a : Nat} (h : s.loadOpen = true) (ha : a ≤ 255) :
    s.loadRead a = .ok (s.mem.cell a) := by
  simp [State.loadRead, memRead, h, ha]

theorem load_outside {s : State} {a : Nat} (v : Nat) (h : s.loadOpen = true) (ha : 255 < a) :
    s.loadWrite a v = .refused (.loadBounds a) ∧ s.loadRead a = .error (.loadBounds a) := by
  simp [State.loadWrite, State.loadRead, memWrite, memRead, h, Nat.not_le.2 ha]

theorem load_closed {s : State} (a v : Nat) (h : s.loadOpen = false) :
    s.loadWrite a v = .refused .loadClosed ∧ s.loadRead a = .error .loadClosed := by
  simp [State.loadWrite, State.loadRead, h]

/-- All that a load port write can do (R37, R46). -/
theorem loadWrite_spec {s s' : State} {a v : Nat} (h : s.loadWrite a v = .next s') :
    s.loadOpen = true ∧ a ≤ 255 ∧ s' = s.setMem (s.mem.put a (BitVec.ofNat 8 v)) := by
  unfold State.loadWrite at h
  split at h
  · split at h
    · obtain ⟨ha, rfl⟩ := memWrite_spec ‹_›
      exact ⟨‹_›, ha, by simpa using h.symm⟩
    · cases h
  · cases h

theorem loadWrite_keeps_wf {s s' : State} {a v : Nat} (h : s.loadWrite a v = .next s')
    (hm : s.mem.wf = true) : s'.mem.wf = true := by
  obtain ⟨-, ha, rfl⟩ := loadWrite_spec h
  exact put_keeps_wf _ hm ha

theorem withFetchByte_keeps_wf {s : State} (nbits w k : Nat) (hm : s.mem.wf = true) :
    (s.withFetchByte nbits w k).mem.wf = true := by
  unfold State.withFetchByte
  split
  · exact put_keeps_wf _ hm ‹_›
  · exact hm

theorem withFetchWord_keeps_wf {s : State} (nbits w : Nat) (hm : s.mem.wf = true) :
    (s.withFetchWord nbits w).mem.wf = true :=
  withFetchByte_keeps_wf _ _ _ (withFetchByte_keeps_wf _ _ _ (withFetchByte_keeps_wf _ _ _ hm))

theorem reset_mem_wf : State.reset.mem.wf = true := rfl

end Sys2Proof.Machine
end

