-- ==== Sys2Proof/Laws/Ops.lean ====
section
/-! SUPPORT. One lemma per shared operation that says all it can do: the sequencer, the operand checks, the ALU. -/

namespace Sys2Proof.Machine

theorem operandCount_le (op : Opcode) : op.operandCount ≤ 2 := by cases op <;> decide

theorem size_eq (i : Instr) : i.size = 1 + i.opcode.operandCount := rfl

theorem size_le (i : Instr) : i.size ≤ 3 := by
  have := operandCount_le i.opcode
  rw [size_eq]
  omega

@[simp] theorem size_ldi (a imm : Byte) : (Instr.ldi a imm).size = 3 := rfl
@[simp] theorem size_prn (a : Byte) : (Instr.prn a).size = 2 := rfl
@[simp] theorem size_mul (a b : Byte) : (Instr.mul a b).size = 3 := rfl
@[simp] theorem size_add (a b : Byte) : (Instr.add a b).size = 3 := rfl
@[simp] theorem size_hlt : Instr.hlt.size = 1 := rfl

/-! ### The sequencer -/

theorem advance_inside {s : State} {i : Instr} (h : s.pc.toNat + i.size ≤ 255) :
    s.advance i = s.setPc (BitVec.ofNat 8 (s.pc.toNat + i.size)) := if_pos h

theorem advance_halt {s : State} {i : Instr} (h : 255 < s.pc.toNat + i.size) (hi : i.opcode = .hlt) :
    s.advance i = s := by
  unfold State.advance
  rw [if_neg (by simp only [State.addrOf]; omega), if_pos hi]

theorem advance_outside {s : State} {i : Instr} (h : 255 < s.pc.toNat + i.size) (hi : i.opcode ≠ .hlt) :
    s.advance i = s.raise .memBoundsFetch i.size i.opcode.byte := by
  unfold State.advance
  rw [if_neg (by simp only [State.addrOf]; omega), if_neg hi]

/-- The one way it faults once the operands were in memory: the instruction ends at 255 (R82). -/
theorem advance_at_256 {s : State} {i : Instr} (h : s.pc.toNat + i.size = 256) (hi : i.opcode ≠ .hlt) :
    s.advance i = s.latch ⟨.memBoundsFetch, 256, i.opcode.byte⟩ := by
  rw [advance_outside (by omega) hi]
  simp only [State.raise, State.faultAt, State.addrOf, h]
  rfl

/-- The three things the sequencer can do (R81, R82). -/
theorem advance_cases (s : State) (i : Instr) :
    (s.pc.toNat + i.size ≤ 255 ∧ s.advance i = s.setPc (BitVec.ofNat 8 (s.pc.toNat + i.size))) ∨
    (255 < s.pc.toNat + i.size ∧ i.opcode = .hlt ∧ s.advance i = s) ∨
    (255 < s.pc.toNat + i.size ∧ i.opcode ≠ .hlt ∧
      s.advance i = s.raise .memBoundsFetch i.size i.opcode.byte) := by
  by_cases h : s.pc.toNat + i.size ≤ 255
  · exact .inl ⟨h, advance_inside h⟩
  · by_cases hi : i.opcode = .hlt
    · exact .inr (.inl ⟨by omega, hi, advance_halt (by omega) hi⟩)
    · exact .inr (.inr ⟨by omega, hi, advance_outside (by omega) hi⟩)

section Fields
variable (s : State) (i : Instr)

@[simp] theorem advance_x : (s.advance i).x = s.x := by
  unfold State.advance; split <;> [rfl; (split <;> rfl)]
@[simp] theorem advance_fl : (s.advance i).fl = s.fl := by
  unfold State.advance; split <;> [rfl; (split <;> rfl)]
@[simp] theorem advance_running : (s.advance i).running = s.running := by
  unfold State.advance; split <;> [rfl; (split <;> rfl)]
@[simp] theorem advance_mem : (s.advance i).mem = s.mem := by
  unfold State.advance; split <;> [rfl; (split <;> rfl)]
@[simp] theorem advance_out : (s.advance i).out = s.out := by
  unfold State.advance; split <;> [rfl; (split <;> rfl)]
@[simp] theorem advance_readReg (r : Fin 8) : (s.advance i).readReg r = s.readReg r := by
  simp [State.readReg]

/-- The sequencer moves the pc by the size, or not at all. -/
theorem advance_pc : (s.advance i).pc.toNat =
    if s.pc.toNat + i.size ≤ 255 then s.pc.toNat + i.size else s.pc.toNat := by
  obtain ⟨h, e⟩ | ⟨h, -, e⟩ | ⟨h, -, e⟩ := advance_cases s i
  · rw [if_pos h, e]
    simp
    omega
  · rw [if_neg (by omega), e]
  · rw [if_neg (by omega), e]
    rfl

end Fields

/-! ### Operand bounds (R77) -/

theorem operandOutside_none {s : State} {n : Nat} (hn : n ≤ 2) (h : s.pc.toNat + n ≤ 255) :
    s.operandOutside n = none := by
  unfold State.operandOutside State.addrOf
  rw [if_neg (by omega), if_neg (by omega)]

/-- The first operand byte outside memory is always at address 256 (R48). -/
theorem operandOutside_some {s : State} {n : Nat} (hn : n ≤ 2) (h : 255 < s.pc.toNat + n) :
    ∃ k, s.operandOutside n = some k ∧ s.pc.toNat + k = 256 := by
  have := s.pc.isLt
  unfold State.operandOutside State.addrOf
  by_cases h1 : 255 < s.pc.toNat + 1
  · exact ⟨1, if_pos ⟨by omega, h1⟩, by omega⟩
  · exact ⟨2, by rw [if_neg (by omega), if_pos (by omega)], by omega⟩

theorem withOperands_inside {s : State} {i : Instr} (f : State) (h : s.pc.toNat + i.size ≤ 256) :
    s.withOperands i f = f := by
  rw [size_eq] at h
  unfold State.withOperands
  rw [operandOutside_none (operandCount_le _) (by omega)]

theorem withOperands_outside {s : State} {i : Instr} (f : State) (h : 256 < s.pc.toNat + i.size) :
    s.withOperands i f = s.latch ⟨.memBoundsOperand, 256, i.opcode.byte⟩ := by
  rw [size_eq] at h
  obtain ⟨k, hk, e⟩ := operandOutside_some (s := s) (operandCount_le i.opcode) (by omega)
  unfold State.withOperands State.raise State.faultAt State.addrOf
  simp only [hk, e]
  rfl

/-! ### The register index check (R79) -/

theorem withReg_legal {s : State} {k : Nat} {v : Byte} (f : Fin 8 → State) (h : v.toNat ≤ 7) :
    s.withReg k v f = f ⟨v.toNat, by omega⟩ := dif_pos (by omega)

theorem withReg_illegal {s : State} {k : Nat} {v : Byte} (f : Fin 8 → State) (h : 7 < v.toNat) :
    s.withReg k v f = s.raise .regBounds k v := dif_neg (by omega)

/-! ### The ALU (R89, R92) -/

theorem aluResult_add (u v : Byte) : (aluResult .add u v).toNat = (u.toNat + v.toNat) % 256 := by
  simp [aluResult]

theorem aluResult_mul (u v : Byte) : (aluResult .mul u v).toNat = (u.toNat * v.toNat) % 256 := by
  simp [aluResult]

theorem aluResult_add_eq (u v : Byte) : aluResult .add u v = u + v := by
  apply BitVec.eq_of_toNat_eq
  rw [aluResult_add, BitVec.toNat_add]

theorem aluResult_mul_eq (u v : Byte) : aluResult .mul u v = u * v := by
  apply BitVec.eq_of_toNat_eq
  rw [aluResult_mul, BitVec.toNat_mul]

@[simp] theorem alu_readReg_same (s : State) (o : AluOp) (a b : Fin 8) :
    (s.alu o a b).readReg a = aluResult o (s.readReg a) (s.readReg b) := readReg_writeReg_same _ _ _

@[simp] theorem alu_readReg_other (s : State) (o : AluOp) (a b q : Fin 8) (h : q ≠ a) :
    (s.alu o a b).readReg q = s.readReg q := readReg_writeReg_other _ _ _ _ h

end Sys2Proof.Machine
end

