-- ==== Sys2Proof/Laws/PerInstr.lean ====
section
/-! SUPPORT. Statements made instruction by instruction, one lemma per constructor of Instr. -/

namespace Sys2Proof.Laws.EncodingShape

/-- The encoding of an instruction is 1 to 3 bytes, as many as its size, and its first byte selects its row of the
opcode map under the spec's configuration (R58, R60, R61). -/
def Statement (i : Instr) : Prop :=
  (encode i).length = i.size ∧ 1 ≤ i.size ∧ i.size ≤ 3 ∧
    (encode i).head?.bind (decodeOpcode Config.spec) = some i.opcode

theorem ldi (a imm : Byte) : Statement (.ldi a imm) := ⟨rfl, Nat.le_of_ble_eq_true rfl, Nat.le_of_ble_eq_true rfl, rfl⟩
theorem prn (a : Byte) : Statement (.prn a) := ⟨rfl, Nat.le_of_ble_eq_true rfl, Nat.le_of_ble_eq_true rfl, rfl⟩
theorem mul (a b : Byte) : Statement (.mul a b) := ⟨rfl, Nat.le_of_ble_eq_true rfl, Nat.le_of_ble_eq_true rfl, rfl⟩
theorem add (a b : Byte) : Statement (.add a b) := ⟨rfl, Nat.le_of_ble_eq_true rfl, Nat.le_of_ble_eq_true rfl, rfl⟩
theorem hlt : Statement .hlt := ⟨rfl, Nat.le_of_ble_eq_true rfl, Nat.le_of_ble_eq_true rfl, rfl⟩

end Sys2Proof.Laws.EncodingShape
end

