-- ==== Sys2Proof/Laws/Step.lean ====
section
/-! SUPPORT. What executing an instruction and what a step can do, said once: the meanings' equations, the inversion of
exec and of the step, and the fields they leave alone. -/

namespace Sys2Proof.Machine

/-! ### The meanings, by case -/

/-- The execute action alone (R80): the state `u` that instruction `i` makes of `s` before the pc advances. -/
def Acts (i : Instr) (s u : State) : Prop :=
  match i with
  | .ldi a imm => ∃ r : Fin 8, r.val = a.toNat ∧ u = s.writeReg r imm
  | .prn a => ∃ r : Fin 8, r.val = a.toNat ∧ u = s.emit (s.readReg r)
  | .mul a b => ∃ r q : Fin 8, r.val = a.toNat ∧ q.val = b.toNat ∧ u = s.alu .mul r q
  | .add a b => ∃ r q : Fin 8, r.val = a.toNat ∧ q.val = b.toNat ∧ u = s.alu .add r q
  | .hlt => u = s.stop

/-- The first register operand that is illegal, by its place, in the order they are tested (R79). -/
def firstIllegal : Instr → Option (Nat × Byte)
  | .ldi a _ => if a.toNat ≤ 7 then none else some (1, a)
  | .prn a => if a.toNat ≤ 7 then none else some (1, a)
  | .mul a b => if a.toNat ≤ 7 then (if b.toNat ≤ 7 then none else some (2, b)) else some (1, a)
  | .add a b => if a.toNat ≤ 7 then (if b.toNat ≤ 7 then none else some (2, b)) else some (1, a)
  | .hlt => none

theorem firstIllegal_none (i : Instr) : firstIllegal i = none ↔ i.WellFormed := by
  cases i <;> simp only [firstIllegal, Instr.WellFormed, legalReg] <;> (repeat' split) <;> simp_all

/-- An instruction whose operand bytes reach past 255 (R77). -/
theorem exec_outside {i : Instr} {s : State} (h : 256 < s.pc.toNat + i.size) :
    exec i s = .next (s.latch ⟨.memBoundsOperand, 256, i.opcode.byte⟩) := by
  cases i with
  | hlt => have := s.pc.isLt; simp [Instr.size, Instr.opcode, Opcode.operandCount] at h; omega
  | _ => exact congrArg Host.Outcome.next (withOperands_outside _ h)

/-- An instruction with an illegal register operand (R79). -/
theorem exec_illegal {i : Instr} {s : State} {k : Nat} {v : Byte} (h : s.pc.toNat + i.size ≤ 256)
    (hi : firstIllegal i = some (k, v)) : exec i s = .next (s.raise .regBounds k v) := by
  have hw : ∀ f, s.withOperands i f = f := fun f => withOperands_inside f h
  cases i <;> simp only [firstIllegal] at hi <;> (repeat' split at hi) <;> cases hi <;>
    simp only [exec, execLdi, execPrn, execMul, execAdd, hw] <;>
    first
      | rw [withReg_illegal _ (by omega)]
      | rw [withReg_legal _ (by omega), withReg_illegal _ (by omega)]

/-- An instruction that executes: its action, then the sequencer. -/
theorem exec_legal {i : Instr} {s : State} (h : s.pc.toNat + i.size ≤ 256) (hi : i.WellFormed) :
    ∃ u, Acts i s u ∧ exec i s = .next (u.advance i) := by
  cases i with
  | hlt => exact ⟨_, rfl, rfl⟩
  | ldi a imm =>
    refine ⟨_, ⟨⟨a.toNat, by simp only [Instr.WellFormed, legalReg] at hi; omega⟩, rfl, rfl⟩, ?_⟩
    simp only [exec, execLdi, withOperands_inside _ h, withReg_legal _ hi]
  | prn a =>
    refine ⟨_, ⟨⟨a.toNat, by simp only [Instr.WellFormed, legalReg] at hi; omega⟩, rfl, rfl⟩, ?_⟩
    simp only [exec, execPrn, withOperands_inside _ h, withReg_legal _ hi]
  | mul a b =>
    obtain ⟨ha, hb⟩ := hi
    refine ⟨_, ⟨⟨a.toNat, by simp only [legalReg] at ha; omega⟩,
      ⟨b.toNat, by simp only [legalReg] at hb; omega⟩, rfl, rfl, rfl⟩, ?_⟩
    simp only [exec, execMul, withOperands_inside _ h, withReg_legal _ ha, withReg_legal _ hb]
  | add a b =>
    obtain ⟨ha, hb⟩ := hi
    refine ⟨_, ⟨⟨a.toNat, by simp only [legalReg] at ha; omega⟩,
      ⟨b.toNat, by simp only [legalReg] at hb; omega⟩, rfl, rfl, rfl⟩, ?_⟩
    simp only [exec, execAdd, withOperands_inside _ h, withReg_legal _ ha, withReg_legal _ hb]

/-- All that executing an instruction can do: one of the three checks' outcomes, in the order they are tested. -/
theorem exec_cases {i : Instr} {s t : State} (h : exec i s = .next t) :
    (256 < s.pc.toNat + i.size ∧ t = s.latch ⟨.memBoundsOperand, 256, i.opcode.byte⟩) ∨
    (s.pc.toNat + i.size ≤ 256 ∧ ∃ k v, firstIllegal i = some (k, v) ∧ t = s.raise .regBounds k v) ∨
    (s.pc.toNat + i.size ≤ 256 ∧ i.WellFormed ∧ ∃ u, Acts i s u ∧ t = u.advance i) := by
  by_cases hb : 256 < s.pc.toNat + i.size
  · rw [exec_outside hb] at h
    exact .inl ⟨hb, by simpa using h.symm⟩
  · have hb' : s.pc.toNat + i.size ≤ 256 := by omega
    cases hf : firstIllegal i with
    | some p =>
      rw [exec_illegal hb' hf] at h
      exact .inr (.inl ⟨hb', p.1, p.2, by simp, by simpa using h.symm⟩)
    | none =>
      have hw := (firstIllegal_none i).1 hf
      obtain ⟨u, hu, e⟩ := exec_legal hb' hw
      rw [e] at h
      exact .inr (.inr ⟨hb', hw, u, hu, by simpa using h.symm⟩)

/-- The execute action writes one register, or one output value, or the running flag, and nothing else (R80). -/
theorem acts_cases {i : Instr} {s u : State} (h : Acts i s u) :
    (∃ r v, i.opcode ≠ .hlt ∧ u = s.writeReg r v) ∨ (∃ v, i.opcode ≠ .hlt ∧ u = s.emit v) ∨
      (i = .hlt ∧ u = s.stop) := by
  cases i with
  | ldi a imm => obtain ⟨r, -, rfl⟩ := h; exact .inl ⟨r, _, nofun, rfl⟩
  | prn a => obtain ⟨r, -, rfl⟩ := h; exact .inr (.inl ⟨_, nofun, rfl⟩)
  | mul a b => obtain ⟨r, q, -, -, rfl⟩ := h; exact .inl ⟨r, _, nofun, rfl⟩
  | add a b => obtain ⟨r, q, -, -, rfl⟩ := h; exact .inl ⟨r, _, nofun, rfl⟩
  | hlt => exact .inr (.inr ⟨rfl, h⟩)

/-- What no execute action touches (R80). -/
theorem acts_frame {i : Instr} {s u : State} (h : Acts i s u) :
    u.pc = s.pc ∧ u.fl = s.fl ∧ u.fault = s.fault ∧ u.mem = s.mem := by
  obtain ⟨r, v, -, rfl⟩ | ⟨v, -, rfl⟩ | ⟨-, rfl⟩ := acts_cases h <;> exact ⟨rfl, rfl, rfl, rfl⟩

/-! ### Fields no instruction writes -/

theorem exec_mem {i : Instr} {s t : State} (h : exec i s = .next t) : t.mem = s.mem := by
  obtain ⟨-, rfl⟩ | ⟨-, k, v, -, rfl⟩ | ⟨-, -, u, hu, rfl⟩ := exec_cases h
  · rfl
  · rfl
  · rw [advance_mem, (acts_frame hu).2.2.2]

theorem exec_fl {i : Instr} {s t : State} (h : exec i s = .next t) : t.fl = s.fl := by
  obtain ⟨-, rfl⟩ | ⟨-, k, v, -, rfl⟩ | ⟨-, -, u, hu, rfl⟩ := exec_cases h
  · rfl
  · rfl
  · rw [advance_fl, (acts_frame hu).2.1]

/-- Every instruction answers a next state. -/
theorem exec_next (i : Instr) (s : State) : ∃ t, exec i s = .next t := by
  cases i <;> exact ⟨_, rfl⟩

/-! ### The step -/

theorem enabled_iff (s : State) : s.enabled = true ↔ s.running = true ∧ s.fault = none := by
  simp [State.enabled]

theorem stepWith_disabled {cfg : Config} {s : State} (h : s.enabled = false) : stepWith cfg s = .next s := by
  simp [stepWith, h]

theorem stepWith_enabled {cfg : Config} {s : State} (h : s.enabled = true) : stepWith cfg s = cycle cfg s := by
  simp [stepWith, h]

/-- The gated operand fetch (R76): all the operand bytes when they exist. -/
theorem fetchOperands_length {s : State} {n : Nat} (hn : n ≤ 2) :
    (s.fetchOperands n).length = if s.pc.toNat + n ≤ 255 then n else 255 - s.pc.toNat := by
  have := s.pc.isLt
  unfold State.fetchOperands State.addrOf
  repeat' split
  all_goals simp only [List.length_nil, List.length_cons]
  all_goals omega

theorem fetchOperands_getElem {s : State} {n k : Nat} (h : k < (s.fetchOperands n).length) :
    (s.fetchOperands n)[k] = s.fetchByte (k + 1) := by
  unfold State.fetchOperands at h ⊢
  repeat' split
  all_goals (try (exfalso; simp_all; done))
  · have : k = 0 := by simp_all
    subst this; rfl
  · have : k = 0 := by simp_all
    subst this; rfl
  · have : k = 0 ∨ k = 1 := by simp_all; omega
    rcases this with rfl | rfl <;> rfl

/-- All that an enabled step can do: one of the two rejections of the decoder, or the decoded instruction, whose
bytes stand in memory at the pc. -/
theorem cycle_cases (cfg : Config) (s : State) :
    (decodeOpcode cfg (s.fetchByte 0) = none ∧
      cycle cfg s = .next (s.latch ⟨.unrecognizedOpcode, BitVec.ofNat 9 s.pc.toNat, s.fetchByte 0⟩)) ∨
    (∃ op, decodeOpcode cfg (s.fetchByte 0) = some op ∧ 255 < s.pc.toNat + op.operandCount ∧
      cycle cfg s = .next (s.latch ⟨.memBoundsOperand, 256, s.fetchByte 0⟩)) ∨
    (∃ i, decodeOpcode cfg (s.fetchByte 0) = some i.opcode ∧ s.pc.toNat + i.size ≤ 256 ∧
      i.operandBytes = s.fetchOperands i.opcode.operandCount ∧ cycle cfg s = exec i s) := by
  cases hd : s.fetchInstr cfg with
  | error e =>
    cases e with
    | unrecognisedOpcode =>
      refine .inl ⟨decode_unrecognised.1 hd, ?_⟩
      simp only [cycle, hd]
      rfl
    | operandMissing k =>
      obtain ⟨op, ho, hl, hk⟩ := decode_missing hd
      have hn : operandsOf cfg (s.fetchByte 0) = op.operandCount := by simp [operandsOf, ho]
      rw [hn, fetchOperands_length (operandCount_le op)] at hl hk
      have hpc := s.pc.isLt
      have : ¬ s.pc.toNat + op.operandCount ≤ 255 := by
        intro h
        rw [if_pos h] at hl
        omega
      rw [if_neg this] at hk
      refine .inr (.inl ⟨op, ho, by omega, ?_⟩)
      have h256 : s.pc.toNat + k = 256 := by omega
      simp only [cycle, hd, State.raise, State.faultAt, State.addrOf, h256]
      rfl
  | ok p =>
    obtain ⟨i, rest⟩ := p
    obtain ⟨ho, hb⟩ := decode_ok hd
    have hn : operandsOf cfg (s.fetchByte 0) = i.opcode.operandCount := by simp [operandsOf, ho]
    have hlen : i.operandBytes.length = i.opcode.operandCount := by cases i <;> rfl
    rw [hn] at hb
    have hl := congrArg List.length hb
    rw [fetchOperands_length (operandCount_le _), List.length_append, hlen] at hl
    have hpc := s.pc.isLt
    have hin : s.pc.toNat + i.opcode.operandCount ≤ 255 := by
      by_contra h
      rw [if_neg h] at hl
      omega
    rw [if_pos hin] at hl
    have hr : rest = [] := List.length_eq_zero_iff.1 (by omega)
    refine .inr (.inr ⟨i, ho, by rw [size_eq]; omega, by simpa [hr] using hb.symm, ?_⟩)
    simp only [cycle, hd]

/-- All that a step can do: nothing when it is not enabled, a fault before any effect, or the instruction at the pc. -/
theorem stepWith_cases {cfg : Config} {s t : State} (h : stepWith cfg s = .next t) :
    (s.enabled = false ∧ t = s) ∨ (s.enabled = true ∧ ∃ f, t = s.latch f) ∨
    (s.enabled = true ∧ ∃ i, decodeOpcode cfg (s.fetchByte 0) = some i.opcode ∧ s.pc.toNat + i.size ≤ 256 ∧
      i.operandBytes = s.fetchOperands i.opcode.operandCount ∧ exec i s = .next t) := by
  cases he : s.enabled with
  | false =>
    rw [stepWith_disabled he] at h
    exact .inl ⟨rfl, by simpa using h.symm⟩
  | true =>
    rw [stepWith_enabled he] at h
    obtain ⟨-, e⟩ | ⟨op, -, -, e⟩ | ⟨i, hi, hb, ho, e⟩ := cycle_cases cfg s <;> rw [e] at h
    · exact .inr (.inl ⟨rfl, _, by simpa using h.symm⟩)
    · exact .inr (.inl ⟨rfl, _, by simpa using h.symm⟩)
    · exact .inr (.inr ⟨rfl, i, hi, hb, ho, h⟩)

/-- Every step answers a next state. -/
theorem cycle_next (cfg : Config) (s : State) : ∃ t, cycle cfg s = .next t := by
  obtain ⟨-, h⟩ | ⟨op, -, -, h⟩ | ⟨i, -, -, -, h⟩ := cycle_cases cfg s
  · exact ⟨_, h⟩
  · exact ⟨_, h⟩
  · rw [h]
    exact exec_next i s

end Sys2Proof.Machine
end

