-- ==== Sys2Proof/Tests/Slice0.lean ====
section
/-! SUPPORT. Tests on fixed values, each expected result taken from spec/ (the vector or rule named), and a witness that
meets the hypotheses of each statement for the provers. -/

namespace Sys2Proof.Tests

open Sys2Proof.Machine Sys2Proof.Safety

/-- The reset state with the pc at `pc` and `bytes` in memory from there up. -/
def at_ (pc : Nat) (bytes : List Byte) : State :=
  { State.reset with
    pc := BitVec.ofNat 8 pc
    mem := (bytes.zipIdx pc).foldl (fun m p => m.put p.2 p.1) [] }

/-- The state an answer gives, if it gives one. -/
def after : Host.Outcome State Fault Refusal → Option State
  | .next s => some s
  | .fault _ => none
  | .refused _ => none

theorem of_after {o : Host.Outcome State Fault Refusal} {t : State} (h : after o = some t) : o = .next t := by
  cases o <;> simp_all [after]

/-! ### WellFormed refuses each ill-formed term (R66) -/

theorem test_wf_ldi_a : ¬ (Instr.ldi 8 0).WellFormed := by decide
theorem test_wf_prn_a : ¬ (Instr.prn 255).WellFormed := by decide
theorem test_wf_mul_a : ¬ (Instr.mul 8 0).WellFormed := by decide
theorem test_wf_mul_b : ¬ (Instr.mul 0 8).WellFormed := by decide
theorem test_wf_add_a : ¬ (Instr.add 8 0).WellFormed := by decide
theorem test_wf_add_b : ¬ (Instr.add 0 8).WellFormed := by decide
theorem test_wf_legal : (Instr.ldi 7 200).WellFormed ∧ (Instr.mul 7 7).WellFormed ∧ Instr.hlt.WellFormed := by decide

/-! ### Decoding: words written out bit by bit from R59 and R60 -/

theorem test_decode_ldi : decode Config.spec 0b10000010 [0b00000101, 0b11111111] = .ok (.ldi 5 255, []) := by decide
theorem test_decode_prn : decode Config.spec 0b01000111 [0b00000100] = .ok (.prn 4, []) := by decide
theorem test_decode_mul : decode Config.spec 0b10100010 [0b00000001, 0b00000110] = .ok (.mul 1 6, []) := by decide
theorem test_decode_add : decode Config.spec 0b10100000 [0b00000001, 0b00000110] = .ok (.add 1 6, []) := by decide
theorem test_decode_hlt : decode Config.spec 0b00000001 [] = .ok (.hlt, []) := by decide

/-- V5, V7 to V11: the refusals beside the nearest accepted bytes. -/
theorem test_decode_refusals :
    ([0x00, 0xFF, 0x02, 0x83, 0x46, 0xA3, 0xA1, 0xC2, 0x07, 0xE2, 0xE0, 0x41] : List Byte).all
      (fun b => (decodeOpcode Config.spec b).isNone) ∧ decodeOpcode Config.withoutAdd 0xA0 = none := by decide

theorem test_decode_missing : decode Config.spec 0xA2 [9] = .error (.operandMissing 2) := by decide

/-- The table's numbering: the first byte is the lowest. -/
theorem test_table_words :
    decodeTableWord 24 0x010082 = some (.ldi 0 1) ∧ decodeTableWord 16 0x0647 = some (.prn 6) ∧
    decodeTableWord 24 0x0302A2 = some (.mul 2 3) ∧ decodeTableWord 24 0x0302A0 = some (.add 2 3) ∧
    decodeTableWord 8 0x01 = some .hlt ∧ decodeTableWord 8 0x00 = none := by decide

/-! ### One step each -/

/-- V15: register 6 is overwritten, the pc is 3. -/
theorem test_ldi_r6 : after (step (at_ 0 [0x82, 0x06, 0x00])) =
    some { at_ 0 [0x82, 0x06, 0x00] with x := #v[0, 0, 0, 0, 0, 0, 0, 0], pc := 3 } := by decide +kernel

/-- V48: LDI ending at 255 writes, and faults. -/
theorem test_ldi_at_253 : after (step (at_ 253 [0x82, 0x01, 0x07])) =
    some { at_ 253 [0x82, 0x01, 0x07] with
      x := #v[0, 7, 0, 0, 0, 0, 244, 0], fault := some ⟨.memBoundsFetch, 256, 0x82⟩ } := by decide +kernel

/-- V20: PRN of register 6 at reset prints 244. -/
theorem test_prn_r6 : after (step (at_ 0 [0x47, 0x06])) =
    some { at_ 0 [0x47, 0x06] with out := [244], pc := 2 } := by decide +kernel

/-- V46: PRN at 255 emits nothing. -/
theorem test_prn_at_255 : after (step (at_ 255 [0x47])) =
    some { at_ 255 [0x47] with fault := some ⟨.memBoundsOperand, 256, 0x47⟩ } := by decide +kernel

/-- V35: 3 times 244 is 732, which is 220 modulo 256. -/
theorem test_mul_r0_r6 :
    (after (step { at_ 6 [0xA2, 0x00, 0x06] with x := #v[3, 0, 0, 0, 0, 0, 244, 0] })).map (fun t => (t.x, t.pc)) =
      some (#v[220, 0, 0, 0, 0, 0, 244, 0], 9) := by decide +kernel

/-- V33: the same register twice is its square. -/
theorem test_mul_square :
    (after (step { at_ 0 [0xA2, 0x03, 0x03] with x := #v[0, 0, 0, 12, 0, 0, 0, 0] })).map (fun t => t.x) =
      some #v[0, 0, 0, 144, 0, 0, 0, 0] := by decide +kernel

/-- V39e: 244 plus 144 is 388, which is 132 modulo 256; the source register keeps its value. -/
theorem test_add_r6_r3 :
    (after (step { at_ 0 [0xA0, 0x06, 0x03] with x := #v[0, 0, 0, 144, 0, 0, 244, 0] })).map (fun t => (t.x, t.pc)) =
      some (#v[0, 0, 0, 144, 0, 0, 132, 0], 3) := by decide +kernel

/-- V44: without ADD the byte 0xA0 is an unrecognised opcode. -/
theorem test_add_not_fetchable : after (stepWith Config.withoutAdd (at_ 6 [0xA0])) =
    some { at_ 6 [0xA0] with fault := some ⟨.unrecognizedOpcode, 6, 0xA0⟩ } := by decide +kernel

/-- V39f: HLT alone. -/
theorem test_hlt : after (step (at_ 0 [0x01])) = some { at_ 0 [0x01] with running := false, pc := 1 } := by decide +kernel

/-- V39h: HLT at 255 leaves the pc. -/
theorem test_hlt_at_255 : after (step (at_ 255 [0x01])) = some { at_ 255 [0x01] with running := false } := by decide +kernel

/-! ### Faults and their priority -/

/-- V40: the empty program. -/
theorem test_reset_step : after (step State.reset) =
    some { State.reset with fault := some ⟨.unrecognizedOpcode, 0, 0⟩ } := by decide +kernel

/-- V45: the operand bounds come before the register check. -/
theorem test_bounds_before_register : after (step (at_ 254 [0xA2, 0x09])) =
    some { at_ 254 [0xA2, 0x09] with fault := some ⟨.memBoundsOperand, 256, 0xA2⟩ } := by decide +kernel

/-- V50: operand `a` is reported, not `b`. -/
theorem test_a_before_b : after (step (at_ 0 [0xA2, 0x09, 0x09])) =
    some { at_ 0 [0xA2, 0x09, 0x09] with fault := some ⟨.regBounds, 1, 9⟩ } := by decide +kernel

/-- V51: an illegal `b` leaves register `a`. -/
theorem test_illegal_b : after (step (at_ 0 [0xA2, 0x00, 0x09])) =
    some { at_ 0 [0xA2, 0x00, 0x09] with fault := some ⟨.regBounds, 2, 9⟩ } := by decide +kernel

/-- V49: the register check of a PRN at 253. -/
theorem test_prn_illegal : after (step (at_ 253 [0x47, 0x09])) =
    some { at_ 253 [0x47, 0x09] with fault := some ⟨.regBounds, 254, 9⟩ } := by decide +kernel

/-- R96: the codes 1 to 4. -/
theorem test_fault_codes :
    [FaultCause.unrecognizedOpcode, .memBoundsOperand, .memBoundsFetch, .regBounds].map FaultCause.code =
      [1, 2, 3, 4] := by decide

/-! ### Output text, load port, placing an instruction -/

/-- R87: the stream 0, 255, 7. -/
theorem test_text : outputText Config.spec [0, 255, 7] = ['0', '\n', '2', '5', '5', '\n', '7', '\n'] := by decide

/-- R117: a load from address 0 up, in canonical form. -/
theorem test_launch : after (launch [0x47, 0x00, 0x01]) =
    some { State.reset with mem := [(0, 0x47), (2, 0x01)] } := by decide +kernel

theorem test_load_refused : State.reset.loadWrite 256 1 = .refused (.loadBounds 256) := rfl

/-- R120: the port is open after a load and closed after one step of a run, halted (R115) or not. -/
theorem test_load_phases :
    (at_ 0 [0x47, 0x00]).loadOpen = true ∧
    ((after (step (at_ 0 [0x47, 0x00]))).map fun t => t.loadOpen) = some false ∧
    ((after (step (at_ 0 [0x01]))).map fun t => t.loadOpen) = some false := by decide +kernel

theorem test_with_fetch_word : after (step (State.reset.withFetchWord 24 0x2A0782)) =
    some { State.reset with
      x := #v[0, 0, 0, 0, 0, 0, 244, 42], pc := 3, mem := [(0, 0x82), (1, 0x07), (2, 0x2A)] } := by decide +kernel

/-! ### Witnesses: states and operands that meet the hypotheses of each statement -/

theorem witness_StepRunsTheDecodedInstruction :
    (at_ 253 [0xA2, 1, 2]).enabled = true ∧
    decode Config.spec ((at_ 253 [0xA2, 1, 2]).mem.cell 253)
      ((List.range (255 - 253)).map fun k => (at_ 253 [0xA2, 1, 2]).mem.cell (253 + 1 + k)) = .ok (.mul 1 2, []) := by
  decide +kernel

theorem witness_StepNotEnabledChangesNothing :
    (State.reset.stop.running = false) ∧ (State.reset.raise .regBounds 1 9).fault ≠ none := by decide

theorem witness_LdiLoadsTheWholeImmediate :
    (7 : Byte).toNat = (7 : Fin 8).val ∧ (at_ 252 []).pc.toNat + 3 ≤ 255 ∧
    (200 : Byte) ∈ (Instr.ldi 7 200).operandBytes := by decide

theorem witness_PrnEmitsTheRegister :
    (0 : Byte).toNat = (0 : Fin 8).val ∧ (at_ 253 []).pc.toNat + 2 ≤ 255 := by decide

theorem witness_MulWritesTheProduct :
    (7 : Byte).toNat = (7 : Fin 8).val ∧ (0 : Byte).toNat = (0 : Fin 8).val ∧
    (at_ 252 []).pc.toNat + 3 ≤ 255 := by decide

theorem witness_AddWritesTheSum :
    (6 : Byte).toNat = (6 : Fin 8).val ∧ (6 : Byte).toNat = (6 : Fin 8).val ∧
    (at_ 0 []).pc.toNat + 3 ≤ 255 := by decide

theorem witness_MulOperandsCommute :
    (6 : Byte).toNat = (6 : Fin 8).val ∧ (1 : Byte).toNat = (1 : Fin 8).val ∧
    (at_ 252 []).pc.toNat + 3 ≤ 255 := by decide

theorem witness_SizeIsOnePlusOperandCount :
    (Instr.mul 1 2).opcode.byte = (Instr.mul 200 7).opcode.byte := by decide

theorem witness_PcAdvancesByTheSize_completes :
    (Instr.ldi 7 0).WellFormed ∧ (at_ 252 []).pc.toNat + (Instr.ldi 7 0).size ≤ 255 := by decide

theorem witness_PcAdvancesByTheSize_moves :
    exec .hlt (at_ 254 [0x01]) = .next { at_ 254 [0x01] with running := false, pc := 255 } ∧
    stepWith Config.spec (at_ 254 [0x01]) = .next { at_ 254 [0x01] with running := false, pc := 255 } ∧
    (255 : Byte) ≠ (at_ 254 [0x01]).pc :=
  ⟨of_after (by decide +kernel), of_after (by decide +kernel), by decide +kernel⟩

theorem witness_InstructionEndingAt255TakesEffectAndFaults :
    (7 : Byte).toNat = (7 : Fin 8).val ∧ (0 : Byte).toNat = (0 : Fin 8).val ∧
    (at_ 253 []).pc.toNat = 253 ∧ (at_ 254 []).pc.toNat = 254 := by decide

theorem witness_MissingOperandFaults_step :
    (at_ 254 [0x82, 7]).enabled = true ∧
    decodeOpcode Config.spec ((at_ 254 [0x82, 7]).mem.cell (at_ 254 [0x82, 7]).pc.toNat) = some .ldi ∧
    255 < (at_ 254 [0x82, 7]).pc.toNat + Opcode.ldi.operandCount := by decide +kernel

theorem witness_MissingOperandFaults_exec :
    256 < (at_ 254 []).pc.toNat + (Instr.add 0 0).size ∧ 256 < (at_ 255 []).pc.toNat + (Instr.prn 0).size := by decide

theorem witness_UnrecognisedOpcodeFaults :
    (at_ 255 [0x09]).enabled = true ∧
    decodeOpcode Config.spec ((at_ 255 [0x09]).mem.cell (at_ 255 [0x09]).pc.toNat) = none := by decide +kernel

theorem witness_IllegalRegisterFaults :
    7 < (8 : Byte).toNat ∧ (7 : Byte).toNat ≤ 7 ∧ (at_ 253 []).pc.toNat + 2 ≤ 255 ∧
    (at_ 254 []).pc.toNat + 1 ≤ 255 := by decide

/-- A fault before the execute action, and one after it. -/
theorem witness_FaultsArePrecise :
    (at_ 253 [0x47, 9]).enabled = true ∧
    stepWith Config.spec (at_ 253 [0x47, 9]) =
      .next ((at_ 253 [0x47, 9]).latch ⟨.regBounds, 254, 9⟩) ∧
    (at_ 254 [0x47, 6]).enabled = true ∧
    stepWith Config.spec (at_ 254 [0x47, 6]) =
      .next (((at_ 254 [0x47, 6]).emit 244).latch ⟨.memBoundsFetch, 256, 0x47⟩) :=
  ⟨by decide +kernel, of_after (by decide +kernel), by decide +kernel, of_after (by decide +kernel)⟩

/-- The highest place of a listing of three bytes and of one byte, and two different registers. -/
theorem witness_ListingBytesRunAsTheInstruction :
    (at_ 253 [0xA0, 6, 1]).enabled = true ∧ Instr.Fetchable Config.spec (.add 6 1) ∧
    (at_ 253 [0xA0, 6, 1]).pc.toNat + (Instr.add 6 1).size ≤ 256 ∧
    (∀ k, (h : k < (encode (.add 6 1)).length) →
      (at_ 253 [0xA0, 6, 1]).mem.cell ((at_ 253 [0xA0, 6, 1]).pc.toNat + k) = (encode (.add 6 1))[k]) ∧
    (at_ 255 [0x01]).pc.toNat + Instr.hlt.size ≤ 256 ∧ (at_ 255 [0x01]).mem.cell 255 = 0x01 ∧
    (6 : Byte).toNat = (6 : Fin 8).val ∧ (1 : Byte).toNat = (1 : Fin 8).val ∧ (1 : Fin 8) ≠ 6 := by
  decide +kernel

theorem witness_AddFetchableDecidesTheByteA0 :
    (at_ 253 [0xA0, 1, 2]).enabled = true ∧
    (at_ 253 [0xA0, 1, 2]).mem.cell (at_ 253 [0xA0, 1, 2]).pc.toNat = 0xA0 ∧
    (at_ 253 [0xA0, 1, 2]).pc.toNat ≤ 253 ∧
    Config.spec.addFetchable = true ∧ Config.withoutAdd.addFetchable = false := by decide +kernel

/-- Register 7 is not the destination of `MUL r0, r7`. -/
theorem witness_OnlyTheDestinationRegisterChanges :
    (after (exec (.mul 0 7) (at_ 0 []))).isSome = true ∧
    ∀ a, destByte (.mul 0 7) = some a → a.toNat ≠ (7 : Fin 8).val := by
  refine ⟨rfl, fun a h => ?_⟩
  obtain rfl : (0 : Byte) = a := by simpa [destByte] using h
  decide

/-- Register 5 is not named by `MUL r0, r7`, and no register by HLT. -/
theorem witness_UnnamedRegistersAreNotRead :
    (after (exec (.mul 0 7) (at_ 0 []))).isSome = true ∧
    (∀ a ∈ registerBytes (.mul 0 7), a.toNat ≠ (5 : Fin 8).val) ∧
    ∀ a ∈ registerBytes .hlt, a.toNat ≠ (6 : Fin 8).val := by decide

/-- The exchange of registers 0 and 6. -/
def swap06 (r : Fin 8) : Fin 8 := if r = 0 then 6 else if r = 6 then 0 else r

theorem witness_RegistersAreInterchangeable :
    (∀ r, swap06 (swap06 r) = r) ∧
    (after (exec (.ldi (regByte 6) 9) (at_ 0 []))).isSome = true ∧
    (after (exec (.prn (regByte 6)) (at_ 0 []))).isSome = true ∧
    (after (exec (.mul (regByte 6) (regByte 0)) (at_ 0 []))).isSome = true ∧
    (after (exec (.add (regByte 6) (regByte 0)) (at_ 0 []))).isSome = true ∧
    (after (exec .hlt (at_ 0 []))).isSome = true := by decide

/-- An answer of exec and one of the step, for the statements FlagsAreNeitherReadNorWritten, NoInstructionStores,
OutputOnlyGrowsAndOnlyByPrn and PcNeverDecreases (whose last clause asks for an enabled next state). -/
theorem witness_next_states :
    exec (.prn 6) (at_ 0 [0x47, 6]) = .next (((at_ 0 [0x47, 6]).emit 244).setPc 2) ∧
    stepWith Config.spec (at_ 0 [0x47, 6]) = .next (((at_ 0 [0x47, 6]).emit 244).setPc 2) ∧
    (((at_ 0 [0x47, 6]).emit 244).setPc 2).enabled = true := by
  exact ⟨of_after (by decide +kernel), of_after (by decide +kernel), by decide +kernel⟩

/-- An answer of an instruction that is not PRN. -/
theorem witness_OutputOnlyGrowsAndOnlyByPrn : exec .hlt (at_ 0 []) = .next ((at_ 0 []).stop.setPc 1) ∧
    (∀ a, Instr.hlt ≠ .prn a) := ⟨of_after (by decide +kernel), nofun⟩

/-- A memory that differs outside the two bytes of `PRN r6` at 254. -/
theorem witness_StepReadsOnlyTheInstructionBytes :
    (∀ k, k ≤ operandsOf Config.spec ((at_ 254 [0x47, 6]).mem.cell (at_ 254 [0x47, 6]).pc.toNat) →
      (at_ 254 [0x47, 6]).pc.toNat + k ≤ 255 →
      Memory.cell [(3, 1), (254, 0x47), (255, 6)] ((at_ 254 [0x47, 6]).pc.toNat + k) =
        (at_ 254 [0x47, 6]).mem.cell ((at_ 254 [0x47, 6]).pc.toNat + k)) ∧
    (after (stepWith Config.spec (at_ 254 [0x47, 6]))).isSome = true := by decide +kernel

/-- A step that clears the running flag. -/
theorem witness_OnlyHltClearsRunning :
    stepWith Config.spec (at_ 255 [0x01]) = .next (at_ 255 [0x01]).stop ∧
    (at_ 255 [0x01]).stop.running ≠ (at_ 255 [0x01]).running :=
  ⟨of_after (by decide +kernel), by decide +kernel⟩

/-- The invariant holds of a state with a program, and its step answers: a fault latched by the step. -/
theorem witness_EveryStepKeepsTheInvariant :
    Inv Config.spec (at_ 253 [0x82, 1, 7]) ∧
    (after (stepWith Config.spec (at_ 253 [0x82, 1, 7]))).map (fun t => t.fault) =
      some (some ⟨.memBoundsFetch, 256, 0x82⟩) :=
  ⟨⟨by decide +kernel, rfl, nofun, nofun, nofun⟩, by decide +kernel⟩

/-- The invariant holds of a faulted and of a halted state: its last two clauses are met. -/
theorem witness_Inv_ended :
    Inv Config.spec ((at_ 255 [0x09]).latch ⟨.unrecognizedOpcode, 255, 9⟩) ∧
    Inv Config.spec (at_ 255 [0x01]).stop := by
  refine ⟨⟨by decide +kernel, rfl, nofun, fun f h => ?_, nofun⟩, ⟨by decide +kernel, rfl, fun _ => rfl, nofun, fun _ => ?_⟩⟩
  · obtain rfl : (⟨.unrecognizedOpcode, 255, 9⟩ : FaultRecord) = f := by simpa using h
    exact ⟨by decide +kernel, by decide +kernel, by decide +kernel⟩
  · exact .inr ⟨by decide +kernel, by decide +kernel⟩

theorem witness_EveryRunEnds :
    256 - (at_ 255 [0x01]).pc.toNat ≤ 1 ∧ 256 - (at_ 0 [0x47, 0]).pc.toNat ≤ 256 ∧
    Inv Config.spec (at_ 0 [0x47, 1]) :=
  ⟨by decide +kernel, by decide +kernel, ⟨by decide +kernel, rfl, nofun, nofun, nofun⟩⟩

theorem witness_LaunchStateHoldsTheProgram : (List.replicate 256 (1 : Byte)).length ≤ 256 := by
  rw [List.length_replicate]

theorem witness_ProgramThatDoesNotFitIsRefused : 256 < (List.replicate 257 (0 : Byte)).length := by
  rw [List.length_replicate]
  decide

/-- An open port with the addresses 255, 0 and 256; and a port closed by one field alone. -/
theorem witness_LoadPortWritesOneCell :
    let s := at_ 0 [0x47, 6]
    s = { State.reset with mem := s.mem } ∧ s.mem.wf = true ∧ 255 ≤ 255 ∧ 0 ≠ 255 ∧ 255 < 256 ∧
    ∃ u : State, u = { s with out := [1] } ∧ u ≠ { State.reset with mem := u.mem } := by
  exact ⟨by decide +kernel, by decide +kernel, by decide, by decide, by decide, _, rfl, by decide +kernel⟩

/-- The first step of a launch, and a step that latches a fault at address 0. -/
theorem witness_LoadPortIsClosedByTheFirstStep :
    stepWith Config.spec (at_ 0 [0x47, 6]) = .next (((at_ 0 [0x47, 6]).emit 244).setPc 2) ∧
    stepWith Config.spec State.reset = .next (State.reset.latch ⟨.unrecognizedOpcode, 0, 0⟩) :=
  ⟨of_after (by decide +kernel), of_after (by decide +kernel)⟩

/-- A clean halt and a faulted state. -/
theorem witness_EndedMachineIsFrozenUntilReset :
    ((at_ 0 []).stop).running = false ∧ ((at_ 0 []).latch ⟨.regBounds, 1, 9⟩).fault ≠ none := by decide +kernel

theorem witness_EqualCellsAreEqualMemories :
    (at_ 0 [0x47, 6]).mem.wf = true ∧ Memory.wf [(0, 0x47), (1, 6)] = true ∧
    ∀ a, a ≤ 255 → memRead (at_ 0 [0x47, 6]).mem a = memRead [(0, 0x47), (1, 6)] a :=
  ⟨by decide +kernel, by decide +kernel, fun _ _ => rfl⟩

theorem witness_PlacedInstructionIsTheOneRun :
    (at_ 253 []).enabled = true ∧ (at_ 253 []).mem.wf = true ∧
    (at_ 253 []).pc.toNat + (Instr.mul 9 9).size ≤ 256 := by decide +kernel

theorem witness_AluWritesOneRegister : (1 : Fin 8) ≠ 0 := by decide

theorem witness_LdiThenPrnPrintsTheValue : (7 : Byte).toNat ≤ 7 ∧ (at_ 250 []).pc.toNat + 5 ≤ 255 := by decide

theorem witness_DecodeExactlyInvertsEncode :
    Instr.Fetchable Config.withoutAdd (.mul 8 1) ∧ (0xA2 : Byte) :: [8, 1, 5] = encode (.mul 8 1) ++ [5] ∧
    ¬ Instr.Fetchable Config.withoutAdd (.add 8 1) := by decide

theorem witness_OutputTextIsPlainDecimal : (dec 0).head? = some '0' := by decide

end Sys2Proof.Tests
end

section
/-! Proofs for 20_memory.md: the engine's only accesses to memory are the reads of the instruction at the pc (R42). -/

namespace Sys2Proof.Machine

/-! ### The execute action determines what an instruction does -/

/-- An action exists only when every register operand is legal (R79 comes before R80). -/
theorem acts_wellFormed {i : Instr} {s u : State} (h : Acts i s u) : i.WellFormed := by
  cases i with
  | ldi a imm => obtain ⟨r, hr, -⟩ := h; simp only [Instr.WellFormed]; omega
  | prn a => obtain ⟨r, hr, -⟩ := h; simp only [Instr.WellFormed]; omega
  | mul a b => obtain ⟨r, q, hr, hq, -⟩ := h; simp only [Instr.WellFormed]; omega
  | add a b => obtain ⟨r, q, hr, hq, -⟩ := h; simp only [Instr.WellFormed]; omega
  | hlt => trivial

/-- The execute action is deterministic: an operand byte names one register (R22). -/
theorem acts_unique {i : Instr} {s u u' : State} (h : Acts i s u) (h' : Acts i s u') : u = u' := by
  have same {r r' : Fin 8} {a : Byte} (hr : r.val = a.toNat) (hr' : r'.val = a.toNat) : r = r' :=
    Fin.ext (hr.trans hr'.symm)
  cases i with
  | ldi a imm =>
    obtain ⟨r, hr, rfl⟩ := h
    obtain ⟨r', hr', rfl⟩ := h'
    rw [same hr hr']
  | prn a =>
    obtain ⟨r, hr, rfl⟩ := h
    obtain ⟨r', hr', rfl⟩ := h'
    rw [same hr hr']
  | mul a b =>
    obtain ⟨r, q, hr, hq, rfl⟩ := h
    obtain ⟨r', q', hr', hq', rfl⟩ := h'
    rw [same hr hr', same hq hq']
  | add a b =>
    obtain ⟨r, q, hr, hq, rfl⟩ := h
    obtain ⟨r', q', hr', hq', rfl⟩ := h'
    rw [same hr hr', same hq hq']
  | hlt => exact Eq.trans h h'.symm

/-- An instruction whose bytes exist does its action and then advances the pc: the converse of the last case of
`exec_cases`. -/
theorem exec_of_acts {i : Instr} {s u : State} (hb : s.pc.toNat + i.size ≤ 256) (h : Acts i s u) :
    exec i s = .next (u.advance i) := by
  obtain ⟨u', hu', e⟩ := exec_legal hb (acts_wellFormed h)
  rw [e, acts_unique h hu']

/-! ### Executing an instruction reads no memory -/

/-- The sequencer reads the pc only (R81, R82). -/
theorem advance_setMem (s : State) (m : Memory) (i : Instr) :
    (s.setMem m).advance i = (s.advance i).setMem m := by
  obtain ⟨h, e⟩ | ⟨h, hi, e⟩ | ⟨h, hi, e⟩ := advance_cases s i <;> rw [e]
  · exact advance_inside h
  · exact advance_halt h hi
  · exact advance_outside h hi

theorem acts_setMem {i : Instr} {s u : State} (m : Memory) (h : Acts i s u) :
    Acts i (s.setMem m) (u.setMem m) := by
  cases i with
  | ldi a imm => obtain ⟨r, hr, rfl⟩ := h; exact ⟨r, hr, rfl⟩
  | prn a => obtain ⟨r, hr, rfl⟩ := h; exact ⟨r, hr, rfl⟩
  | mul a b => obtain ⟨r, q, hr, hq, rfl⟩ := h; exact ⟨r, q, hr, hq, rfl⟩
  | add a b => obtain ⟨r, q, hr, hq, rfl⟩ := h; exact ⟨r, q, hr, hq, rfl⟩
  | hlt => exact congrArg (·.setMem m) h

/-- Once decoded, an instruction comes out the same over any memory, and leaves that memory as it is (R42). -/
theorem exec_setMem {i : Instr} {s t : State} (m : Memory) (h : exec i s = .next t) :
    exec i (s.setMem m) = .next (t.setMem m) := by
  obtain ⟨hb, rfl⟩ | ⟨hb, k, v, hi, rfl⟩ | ⟨hb, -, u, hu, rfl⟩ := exec_cases h
  · exact exec_outside hb
  · exact exec_illegal hb hi
  · rw [← advance_setMem]
    exact exec_of_acts hb (acts_setMem m hu)

/-! ### The fetch reads the instruction's own bytes -/

/-- Memory `m` has the same bytes as the memory of `s` where the instruction at the pc stands: the opcode byte and the
operand bytes it calls for, as far as they exist (R42, R48). -/
def SameInstrBytes (cfg : Config) (s : State) (m : Memory) : Prop :=
  ∀ k, k ≤ operandsOf cfg (s.fetchByte 0) → s.pc.toNat + k ≤ 255 → (s.setMem m).fetchByte k = s.fetchByte k

theorem operandsOf_le (cfg : Config) (ir : Byte) : operandsOf cfg ir ≤ 2 := by
  unfold operandsOf
  split
  · exact operandCount_le _
  · exact Nat.zero_le 2

section SameBytes
variable {cfg : Config} {s : State} {m : Memory} (hm : SameInstrBytes cfg s m)
include hm

theorem fetchByte_zero_setMem : (s.setMem m).fetchByte 0 = s.fetchByte 0 :=
  hm 0 (Nat.zero_le _) (addrOf_zero_le s)

/-- The operand fetch is gated on the operand count and on the end of memory, so it stays within the bytes that
agree (R76, R77). -/
theorem fetchOperands_setMem : (s.setMem m).fetchOperands (operandsOf cfg (s.fetchByte 0)) =
    s.fetchOperands (operandsOf cfg (s.fetchByte 0)) := by
  have hn := operandsOf_le cfg (s.fetchByte 0)
  have hlen := fetchOperands_length (s := s) hn
  refine List.ext_getElem ((fetchOperands_length hn).trans hlen.symm) fun k _ hk => ?_
  rw [fetchOperands_getElem, fetchOperands_getElem]
  rw [hlen] at hk
  split at hk <;> exact hm (k + 1) (by omega) (by omega)

theorem fetchInstr_setMem : (s.setMem m).fetchInstr cfg = s.fetchInstr cfg := by
  unfold State.fetchInstr
  rw [fetchByte_zero_setMem hm, fetchOperands_setMem hm]

theorem cycle_setMem {t : State} (h : cycle cfg s = .next t) : cycle cfg (s.setMem m) = .next (t.setMem m) := by
  unfold cycle at h ⊢
  rw [fetchInstr_setMem hm, fetchByte_zero_setMem hm]
  split at h
  · cases h; rfl
  · cases h; rfl
  · exact exec_setMem m h

theorem stepWith_setMem {t : State} (h : stepWith cfg s = .next t) :
    stepWith cfg (s.setMem m) = .next (t.setMem m) := by
  cases he : s.enabled with
  | false =>
    rw [stepWith_disabled he] at h
    cases h
    exact stepWith_disabled he
  | true =>
    have he' : (s.setMem m).enabled = true := he
    rw [stepWith_enabled he] at h
    rw [stepWith_enabled he']
    exact cycle_setMem hm h

end SameBytes

/-- No step writes memory (R42). -/
theorem stepWith_mem {cfg : Config} {s t : State} (h : stepWith cfg s = .next t) : t.mem = s.mem := by
  obtain ⟨-, rfl⟩ | ⟨-, f, rfl⟩ | ⟨-, i, -, -, -, he⟩ := stepWith_cases h
  · rfl
  · rfl
  · exact exec_mem he

/-- Settles O26: the fetch stays within the bytes that agree (`fetchInstr_setMem`), what follows it reads no memory
(`exec_setMem`), and nothing writes any (`stepWith_mem`). -/
theorem stepReadsOnlyTheInstructionBytes : Obligations.StepReadsOnlyTheInstructionBytes := by
  intro cfg s t m hm h
  exact ⟨stepWith_mem h, stepWith_setMem hm h⟩

end Sys2Proof.Machine
end

section
/-! Proofs for 30_encoding.md: the operand bytes an encoding holds, and the immediate of LDI taken whole (R64). -/

namespace Sys2Proof

/-- The converse of `decode_ok`: after an opcode byte of its row, an instruction is decoded from its own operand
bytes, whatever follows them (R59, R76). -/
theorem decode_operandBytes {cfg : Config} {ir : Byte} {i : Instr} (rest : List Byte)
    (h : decodeOpcode cfg ir = some i.opcode) : decode cfg ir (i.operandBytes ++ rest) = .ok (i, rest) := by
  unfold decode
  rw [h]
  cases i <;> rfl

/-- The immediate of LDI is the one operand byte that is not a register operand (R63, R64). -/
theorem operandBytes_register_or_immediate {i : Instr} {v : Byte} (h : v ∈ i.operandBytes) :
    v ∈ Safety.registerBytes i ∨ ∃ a, i = .ldi a v := by
  cases i with
  | ldi a imm =>
    obtain rfl | hv := List.mem_cons.1 h
    · exact .inl List.mem_cons_self
    · obtain rfl := List.mem_singleton.1 hv
      exact .inr ⟨a, rfl⟩
  | prn a => exact .inl h
  | mul a b => exact .inl h
  | add a b => exact .inl h
  | hlt => exact .inl h

end Sys2Proof

namespace Sys2Proof.Machine

/-- An instruction that ends below 255 does its action, and the pc moves past its bytes (R81). -/
theorem exec_of_acts_inside {i : Instr} {s u : State} (hb : s.pc.toNat + i.size ≤ 255) (h : Acts i s u) :
    exec i s = .next (u.setPc (s.pc + BitVec.ofNat 8 i.size)) := by
  have hpc : u.pc = s.pc := (acts_frame h).1
  have hsum : BitVec.ofNat 8 (s.pc.toNat + i.size) = s.pc + BitVec.ofNat 8 i.size := by
    rw [BitVec.ofNat_add, BitVec.ofNat_toNat, BitVec.setWidth_eq]
  rw [exec_of_acts (by omega) h, advance_inside (by rwa [hpc]), hpc, hsum]

/-- Settles O9: the execute action of LDI writes its immediate as it is (`exec_of_acts_inside`), the decoder takes
it as it stands in memory (`decode_operandBytes`), and it is the only immediate
(`operandBytes_register_or_immediate`). -/
theorem ldiLoadsTheWholeImmediate : Obligations.LdiLoadsTheWholeImmediate := by
  refine ⟨fun a imm r s ha hpc => ?_, fun cfg a imm bs => ?_, fun i v => operandBytes_register_or_immediate⟩
  · have hacts : Acts (.ldi a imm) s (s.writeReg r imm) := ⟨r, ha.symm, rfl⟩
    exact exec_of_acts_inside hpc hacts
  · exact decode_operandBytes (i := .ldi a imm) bs (decodeOpcode_byte cfg .ldi nofun)

end Sys2Proof.Machine
end

section
/-! Proofs for 40_engine_cycle.md: the advance of the pc is its only write (R81). -/

namespace Sys2Proof.Machine

/-- What becomes of the pc: an instruction with legal operands that ends below 255 moves it past its bytes (R81), and
any other leaves it (R77, R79, R82). -/
theorem exec_pc_cases {i : Instr} {s t : State} (h : exec i s = .next t) :
    ((i.WellFormed ∧ s.pc.toNat + i.size ≤ 255) ∧ t.pc.toNat = s.pc.toNat + i.size) ∨
    (¬ (i.WellFormed ∧ s.pc.toNat + i.size ≤ 255) ∧ t.pc = s.pc) := by
  obtain ⟨hb, rfl⟩ | ⟨-, k, v, hi, rfl⟩ | ⟨-, hw, u, hu, rfl⟩ := exec_cases h
  · exact .inr ⟨fun ⟨_, hin⟩ => by omega, rfl⟩
  · exact .inr ⟨fun ⟨hw, _⟩ => by simp [(firstIllegal_none i).2 hw] at hi, rfl⟩
  · have hpc := advance_pc u i
    rw [(acts_frame hu).1] at hpc
    split at hpc
    next hin => exact .inl ⟨⟨hw, hin⟩, hpc⟩
    next hout => exact .inr ⟨fun ⟨_, hin⟩ => hout hin, BitVec.eq_of_toNat_eq hpc⟩

theorem exec_pc_of_ne {i : Instr} {s t : State} (h : exec i s = .next t) (hne : t.pc ≠ s.pc) :
    i.WellFormed ∧ t.pc.toNat = s.pc.toNat + i.size := by
  obtain ⟨⟨hw, -⟩, hpc⟩ | ⟨-, hpc⟩ := exec_pc_cases h
  · exact ⟨hw, hpc⟩
  · exact absurd hpc hne

/-- A step that changes the pc was enabled and got through fetch and decode, so it ran the instruction at the pc
(R73). -/
theorem stepWith_exec_of_pc_ne {cfg : Config} {s t : State} (h : stepWith cfg s = .next t) (hne : t.pc ≠ s.pc) :
    ∃ i, s.fetchByte 0 = i.opcode.byte ∧ exec i s = .next t := by
  obtain ⟨-, rfl⟩ | ⟨-, f, rfl⟩ | ⟨-, i, hop, -, -, he⟩ := stepWith_cases h
  · exact absurd rfl hne
  · exact absurd rfl hne
  · exact ⟨i, (decodeOpcode_some hop).1, he⟩

/-- Settles O14: `exec_pc_cases` says exactly when an instruction moves the pc and where to, and a step moves it only
by executing the instruction that stands there (`stepWith_exec_of_pc_ne`). -/
theorem pcAdvancesByTheSize : Obligations.PcAdvancesByTheSize := by
  refine ⟨fun i s hw hin => ?_, fun i s t => exec_pc_of_ne, fun cfg s t h hne => ?_⟩
  · obtain ⟨t, ht⟩ := exec_next i s
    obtain ⟨-, hpc⟩ | ⟨hkept, -⟩ := exec_pc_cases ht
    · exact ⟨t, ht, hpc⟩
    · exact absurd ⟨hw, hin⟩ hkept
  · obtain ⟨i, hop, he⟩ := stepWith_exec_of_pc_ne h hne
    exact ⟨i, h.trans he.symm, hop, (exec_pc_of_ne he hne).2⟩

end Sys2Proof.Machine
end

section
/-! Proofs for 42_print.md: the output primitive (R86). -/

namespace Sys2Proof.Machine

/-- Settles O39: the equation is the definition of `State.emit` itself, which has no guard and so no other case. -/
theorem emitAppendsOneValue : Obligations.EmitAppendsOneValue :=
  fun _ _ => rfl

end Sys2Proof.Machine
end

section
/-! Proofs for 43_alu.md: the flags register is inert (R93), and the ALU writes one register (R89). -/

namespace Sys2Proof.Machine

/-! ### The flags register -/

/-- The flags register replaced, which nothing in the machine does (R25): what "not read" is stated with (R93). -/
def State.setFl (s : State) (v : Byte) : State := { s with fl := v }

theorem advance_setFl (s : State) (v : Byte) (i : Instr) : (s.setFl v).advance i = (s.advance i).setFl v := by
  obtain ⟨h, e⟩ | ⟨h, hi, e⟩ | ⟨h, hi, e⟩ := advance_cases s i <;> rw [e]
  · exact advance_inside h
  · exact advance_halt h hi
  · exact advance_outside h hi

theorem acts_setFl {i : Instr} {s u : State} (v : Byte) (h : Acts i s u) : Acts i (s.setFl v) (u.setFl v) := by
  cases i with
  | ldi a imm => obtain ⟨r, hr, rfl⟩ := h; exact ⟨r, hr, rfl⟩
  | prn a => obtain ⟨r, hr, rfl⟩ := h; exact ⟨r, hr, rfl⟩
  | mul a b => obtain ⟨r, q, hr, hq, rfl⟩ := h; exact ⟨r, q, hr, hq, rfl⟩
  | add a b => obtain ⟨r, q, hr, hq, rfl⟩ := h; exact ⟨r, q, hr, hq, rfl⟩
  | hlt => exact congrArg (·.setFl v) h

/-- No instruction reads `fl`: neither its checks, nor its action, nor the sequencer (R93). -/
theorem exec_setFl {i : Instr} {s t : State} (v : Byte) (h : exec i s = .next t) :
    exec i (s.setFl v) = .next (t.setFl v) := by
  obtain ⟨hb, rfl⟩ | ⟨hb, k, w, hi, rfl⟩ | ⟨hb, -, u, hu, rfl⟩ := exec_cases h
  · exact exec_outside hb
  · exact exec_illegal hb hi
  · rw [← advance_setFl]
    exact exec_of_acts hb (acts_setFl v hu)

/-- The fetch reads the pc and the memory only (R74, R76). -/
theorem fetchInstr_setFl (cfg : Config) (s : State) (v : Byte) :
    (s.setFl v).fetchInstr cfg = s.fetchInstr cfg := rfl

theorem cycle_setFl {cfg : Config} {s t : State} (v : Byte) (h : cycle cfg s = .next t) :
    cycle cfg (s.setFl v) = .next (t.setFl v) := by
  unfold cycle at h ⊢
  rw [fetchInstr_setFl]
  split at h
  · cases h; rfl
  · cases h; rfl
  · exact exec_setFl v h

theorem stepWith_setFl {cfg : Config} {s t : State} (v : Byte) (h : stepWith cfg s = .next t) :
    stepWith cfg (s.setFl v) = .next (t.setFl v) := by
  cases he : s.enabled with
  | false =>
    rw [stepWith_disabled he] at h
    cases h
    exact stepWith_disabled he
  | true =>
    have he' : (s.setFl v).enabled = true := he
    rw [stepWith_enabled he] at h
    rw [stepWith_enabled he']
    exact cycle_setFl v h

/-- No step writes `fl` (R93). -/
theorem stepWith_fl {cfg : Config} {s t : State} (h : stepWith cfg s = .next t) : t.fl = s.fl := by
  obtain ⟨-, rfl⟩ | ⟨-, f, rfl⟩ | ⟨-, i, -, -, -, he⟩ := stepWith_cases h
  · rfl
  · rfl
  · exact exec_fl he

/-- Settles O24: `exec_fl` and `stepWith_fl` say that `fl` is not written, `exec_setFl` and `stepWith_setFl` that it is
not read. -/
theorem flagsAreNeitherReadNorWritten : Obligations.FlagsAreNeitherReadNorWritten :=
  ⟨fun _ _ _ v h => ⟨exec_fl h, exec_setFl v h⟩, fun _ _ _ v h => ⟨stepWith_fl h, stepWith_setFl v h⟩⟩

/-! ### The ALU -/

/-- Settles O40: the destination holds the result of the two old values (`alu_readReg_same`, `aluResult_add`,
`aluResult_mul`), every other register its own (`alu_readReg_other`), and the selector has two constructors (R94). -/
theorem aluWritesOneRegister : Obligations.AluWritesOneRegister := by
  refine ⟨fun s a b => ⟨?_, ?_, fun o => ⟨fun q hq => ?_, rfl⟩⟩, fun o => ?_⟩
  · exact (congrArg BitVec.toNat (alu_readReg_same s .add a b)).trans (aluResult_add _ _)
  · exact (congrArg BitVec.toNat (alu_readReg_same s .mul a b)).trans (aluResult_mul _ _)
  · exact alu_readReg_other s o a b q hq
  · cases o with
    | add => exact .inl rfl
    | mul => exact .inr rfl

end Sys2Proof.Machine
end

section
/-! Proofs for 30_encoding.md: the decoder is the exact inverse of the encoder (R58 to R66). -/

namespace Sys2Proof

/-- The decoder answers an instruction exactly after the opcode byte of its row and on its own operand bytes. -/
theorem decode_ok_iff {cfg : Config} {ir : Byte} {bs rest : List Byte} {i : Instr} :
    decode cfg ir bs = .ok (i, rest) ↔ decodeOpcode cfg ir = some i.opcode ∧ bs = i.operandBytes ++ rest := by
  refine ⟨decode_ok, fun ⟨hop, hbs⟩ => ?_⟩
  rw [hbs]
  exact decode_operandBytes rest hop

/-- A row of the opcode map is decoded from its own byte and no other (R60, R62). -/
theorem decodeOpcode_eq_some_iff {cfg : Config} {ir : Byte} {op : Opcode} :
    decodeOpcode cfg ir = some op ↔ ir = op.byte ∧ (op = .add → cfg.addFetchable = true) := by
  refine ⟨decodeOpcode_some, fun ⟨hir, hadd⟩ => ?_⟩
  rw [hir]
  exact decodeOpcode_byte cfg op hadd

/-- Settles O2: the opcode byte is that of the row (`decodeOpcode_eq_some_iff`) and the following bytes are the
operand bytes and the rest (`decode_ok_iff`), which is the encoding taken apart. -/
theorem decodeExactlyInvertsEncode : Obligations.DecodeExactlyInvertsEncode := by
  intro cfg ir bs rest i
  have hbytes : ir :: bs = encode i ++ rest ↔ ir = i.opcode.byte ∧ bs = i.operandBytes ++ rest := List.cons_eq_cons
  rw [decode_ok_iff, decodeOpcode_eq_some_iff, hbytes]
  constructor
  · rintro ⟨⟨hop, hfetch⟩, hbs⟩
    exact ⟨hfetch, hop, hbs⟩
  · rintro ⟨hfetch, hop, hbs⟩
    exact ⟨⟨hop, hfetch⟩, hbs⟩

/-- Settles O1: each accepted word is an encoding followed by its rest (`decode_operandBytes`), and each refused byte
is no opcode (`decode_unrecognised`). -/
theorem writtenOutWordsDecode : Obligations.WrittenOutWordsDecode := by
  refine ⟨?_, ?_, ?_, ?_, ?_, ?_, ?_, ?_⟩
  · exact decode_operandBytes (i := .ldi 3 200) [] (decodeOpcode_byte _ .ldi nofun)
  · exact decode_operandBytes (i := .prn 6) [1] (decodeOpcode_byte _ .prn nofun)
  · exact decode_operandBytes (i := .mul 2 5) [] (decodeOpcode_byte _ .mul nofun)
  · exact decode_operandBytes (i := .add 6 3) [] (decodeOpcode_byte _ .add fun _ => rfl)
  · exact decode_operandBytes (i := .hlt) [0b10000010] (decodeOpcode_byte _ .hlt nofun)
  · exact decode_unrecognised.2 (by decide)
  · exact decode_unrecognised.2 (by decide)
  · exact decode_unrecognised.2 (by decide)

/-- Settles O3: the rows are those of `decodeOpcode_eq_some_iff`, and the counts run through the 256 bytes. -/
theorem opcodeMapIsTheFiveBytes : Obligations.OpcodeMapIsTheFiveBytes := by
  refine ⟨fun cfg ir => ⟨?_, ?_, ?_, ?_, ?_⟩, by decide +kernel, by decide +kernel⟩ <;>
    simp [decodeOpcode_eq_some_iff, Opcode.byte]

/-- No two rows of the opcode map share a byte (R60). -/
theorem opcodeByte_injective {op op' : Opcode} (h : op.byte = op'.byte) : op = op' := by
  have hop : decodeOpcode Config.spec op.byte = some op := decodeOpcode_byte _ op fun _ => rfl
  have hop' : decodeOpcode Config.spec op'.byte = some op' := decodeOpcode_byte _ op' fun _ => rfl
  exact Option.some.inj (hop.symm.trans (h ▸ hop'))

theorem operandBytes_length (i : Instr) : i.operandBytes.length = i.opcode.operandCount := by
  cases i <;> rfl

/-- Settles O4: the size counts the opcode byte and the operand bytes (`operandBytes_length`), and the opcode byte
determines the row (`opcodeByte_injective`). -/
theorem sizeIsOnePlusOperandCount : Obligations.SizeIsOnePlusOperandCount := by
  refine ⟨fun i => ⟨?_, rfl, encode_length i⟩, fun i j h => ?_, fun a b => ⟨rfl, rfl, rfl, rfl, rfl⟩⟩
  · rw [operandBytes_length, Instr.size]
  · rw [Instr.size, Instr.size, opcodeByte_injective h]

end Sys2Proof
end

section
/-! Proofs for 40_engine_cycle.md: which instruction an enabled step runs (R74 to R78). -/

namespace Sys2Proof.Machine

/-- The bytes of instruction `i` stand in memory from the pc up, and the decoder can produce it: what fetch, decode
and operand fetch of a step come to (R74 to R77). -/
structure Fetched (cfg : Config) (s : State) (i : Instr) : Prop where
  fetchable : i.Fetchable cfg
  inside : s.pc.toNat + i.size ≤ 256
  bytes : ∀ k, (h : k < (encode i).length) → s.fetchByte k = (encode i)[k]

section Fetched
variable {cfg : Config} {s : State} {i : Instr} (hf : Fetched cfg s i)
include hf

theorem Fetched.opcodeByte : s.fetchByte 0 = i.opcode.byte :=
  hf.bytes 0 (Nat.zero_lt_succ _)

theorem Fetched.decodeOpcode_eq : decodeOpcode cfg (s.fetchByte 0) = some i.opcode :=
  decodeOpcode_eq_some_iff.2 ⟨hf.opcodeByte, hf.fetchable⟩

theorem Fetched.operandByte {k : Nat} (hk : k < i.operandBytes.length) :
    s.fetchByte (k + 1) = i.operandBytes[k] :=
  hf.bytes (k + 1) (Nat.succ_lt_succ hk)

theorem Fetched.firstOperand {a : Byte} {bs : List Byte} (h : i.operandBytes = a :: bs) : s.fetchByte 1 = a := by
  have hlt : 0 < i.operandBytes.length := h ▸ Nat.zero_lt_succ _
  rw [hf.operandByte hlt, List.getElem_of_eq h, List.getElem_cons_zero]

theorem Fetched.secondOperand {a b : Byte} {bs : List Byte} (h : i.operandBytes = a :: b :: bs) :
    s.fetchByte 2 = b := by
  have hlt : 1 < i.operandBytes.length := h ▸ Nat.succ_lt_succ (Nat.zero_lt_succ _)
  rw [hf.operandByte hlt, List.getElem_of_eq h, List.getElem_cons_succ, List.getElem_cons_zero]

theorem Fetched.fetchOperands_eq : s.fetchOperands i.opcode.operandCount = i.operandBytes := by
  have hin := hf.inside
  have hlen := operandBytes_length i
  rw [size_eq] at hin
  refine List.ext_getElem ?_ fun k _ hk => ?_
  · rw [fetchOperands_length (operandCount_le _), if_pos (by omega), hlen]
  · rw [fetchOperands_getElem]
    exact hf.operandByte hk

/-- The fetch of a step answers the instruction that stands at the pc. -/
theorem Fetched.fetchInstr_eq : s.fetchInstr cfg = .ok (i, []) := by
  have hn : operandsOf cfg (s.fetchByte 0) = i.opcode.operandCount := by
    simp only [operandsOf, hf.decodeOpcode_eq]
  unfold State.fetchInstr
  rw [hn, hf.fetchOperands_eq, decode_ok_iff]
  exact ⟨hf.decodeOpcode_eq, (List.append_nil _).symm⟩

/-- An enabled step executes the instruction that stands at the pc (R80). -/
theorem Fetched.stepWith_eq (he : s.enabled = true) : stepWith cfg s = exec i s := by
  rw [stepWith_enabled he, cycle, hf.fetchInstr_eq]

end Fetched

/-- The operand fetch found all the operand bytes: the instruction stands at the pc. -/
theorem fetched_of_fetchOperands {cfg : Config} {s : State} {i : Instr}
    (hop : decodeOpcode cfg (s.fetchByte 0) = some i.opcode) (hin : s.pc.toNat + i.size ≤ 256)
    (hbs : i.operandBytes = s.fetchOperands i.opcode.operandCount) : Fetched cfg s i := by
  obtain ⟨hbyte, hfetch⟩ := decodeOpcode_some hop
  refine ⟨hfetch, hin, fun k hk => ?_⟩
  cases k with
  | zero => exact hbyte
  | succ k =>
    have hk' : k < i.operandBytes.length := Nat.lt_of_succ_lt_succ hk
    have hfetched := fetchOperands_getElem (hbs ▸ hk')
    simp only [encode, List.getElem_cons_succ, hbs]
    exact hfetched.symm

/-- An enabled step at a byte that is no opcode (R78). -/
theorem stepWith_unrecognised {cfg : Config} {s : State} (he : s.enabled = true)
    (hd : decodeOpcode cfg (s.fetchByte 0) = none) :
    stepWith cfg s = .next (s.latch ⟨.unrecognizedOpcode, s.pc.setWidth 9, s.fetchByte 0⟩) := by
  rw [stepWith_enabled he, ← BitVec.ofNat_toNat]
  obtain ⟨-, e⟩ | ⟨op, hop, -⟩ | ⟨i, hop, -⟩ := cycle_cases cfg s
  · exact e
  · exact absurd (hd.symm.trans hop) nofun
  · exact absurd (hd.symm.trans hop) nofun

/-- An enabled step at an opcode whose operand bytes reach past 255 (R77). -/
theorem stepWith_operandMissing {cfg : Config} {s : State} {op : Opcode} (he : s.enabled = true)
    (hop : decodeOpcode cfg (s.fetchByte 0) = some op) (hout : 255 < s.pc.toNat + op.operandCount) :
    stepWith cfg s = .next (s.latch ⟨.memBoundsOperand, 256, s.fetchByte 0⟩) := by
  rw [stepWith_enabled he]
  obtain ⟨hd, -⟩ | ⟨-, -, -, e⟩ | ⟨i, hi, hin, -⟩ := cycle_cases cfg s
  · exact absurd (hop.symm.trans hd) nofun
  · exact e
  · obtain rfl : op = i.opcode := Option.some.inj (hop.symm.trans hi)
    rw [size_eq] at hin
    omega

theorem stepWith_next (cfg : Config) (s : State) : ∃ t, stepWith cfg s = .next t := by
  cases he : s.enabled with
  | false => exact ⟨s, stepWith_disabled he⟩
  | true => rw [stepWith_enabled he]; exact cycle_next cfg s

/-- A state that is halted or faulted is not enabled (R73). -/
theorem enabled_eq_false_iff (s : State) : s.enabled = false ↔ s.running = false ∨ s.fault ≠ none := by
  rw [← Bool.not_eq_true, enabled_iff, not_and_or, Bool.not_eq_true]

/-- Settles O7: `stepWith_disabled`. -/
theorem stepNotEnabledChangesNothing : Obligations.StepNotEnabledChangesNothing :=
  fun _ s h => stepWith_disabled ((enabled_eq_false_iff s).2 h)

/-- Settles O8: `exec_next` and `stepWith_next`. -/
theorem everyStepAnswersANextState : Obligations.EveryStepAnswersANextState :=
  ⟨exec_next, stepWith_next⟩

/-- The byte `k` places after the pc, in the list of the memory's bytes from the pc up. -/
theorem fetchByte_eq_getElem (s : State) {k : Nat}
    (h : k < (s.mem.cell s.pc.toNat ::
      (List.range (255 - s.pc.toNat)).map fun k => s.mem.cell (s.pc.toNat + 1 + k)).length) :
    s.fetchByte k = (s.mem.cell s.pc.toNat ::
      (List.range (255 - s.pc.toNat)).map fun k => s.mem.cell (s.pc.toNat + 1 + k))[k] := by
  cases k with
  | zero => rfl
  | succ k => simp [State.fetchByte, State.addrOf, Nat.add_assoc, Nat.add_comm 1 k]

/-- Settles O5: bytes that decode to an instruction begin with its encoding (`decodeExactlyInvertsEncode`), so the
instruction stands at the pc and the step runs it (`Fetched.stepWith_eq`). -/
theorem stepRunsTheDecodedInstruction : Obligations.StepRunsTheDecodedInstruction := by
  refine ⟨fun cfg s i rest he hd => ?_, fun _ => rfl⟩
  obtain ⟨hfetch, hword⟩ := (decodeExactlyInvertsEncode ..).1 hd
  have hlen := congrArg List.length hword
  have hpc := s.pc.isLt
  rw [List.length_cons, List.length_map, List.length_range, List.length_append, encode_length] at hlen
  have hf : Fetched cfg s i := by
    refine ⟨hfetch, by omega, fun k hk => ?_⟩
    rw [fetchByte_eq_getElem s (hword ▸ List.length_append ▸ Nat.lt_add_right _ hk), List.getElem_of_eq hword,
      List.getElem_append_left hk]
  exact hf.stepWith_eq he

/-- Settles O17: `stepWith_unrecognised`. -/
theorem unrecognisedOpcodeFaults : Obligations.UnrecognisedOpcodeFaults :=
  fun _ _ he hd => stepWith_unrecognised he hd

/-- Settles O16: the step stops at the operand fetch (`stepWith_operandMissing`), and exec alone at its own test of
the bounds (`exec_outside`). -/
theorem missingOperandFaults : Obligations.MissingOperandFaults :=
  ⟨fun _ _ _ he hop hout => stepWith_operandMissing he hop hout, fun _ _ hout => exec_outside hout⟩

/-- The byte 0xA0 is no opcode without `ADD_FETCHABLE` (R62). -/
theorem decodeOpcode_add_eq_none {cfg : Config} (h : cfg.addFetchable = false) : decodeOpcode cfg 0xA0 = none := by
  simp [decodeOpcode, Opcode.byte, h]

/-- Settles O20: with `ADD_FETCHABLE` the three bytes are those of ADD (`Fetched.stepWith_eq`), and without it the
first is no opcode (`stepWith_unrecognised`). -/
theorem addFetchableDecidesTheByteA0 : Obligations.AddFetchableDecidesTheByteA0 := by
  intro cfg s he hA0
  constructor
  · intro hadd hpc
    have hf : Fetched cfg s (.add (s.fetchByte 1) (s.fetchByte 2)) :=
      ⟨fun _ => hadd, by rw [size_add]; omega, fun k hk => match k with
        | 0 => hA0
        | 1 => rfl
        | 2 => rfl
        | k + 3 => absurd hk (by rw [encode_length, size_add]; omega)⟩
    exact hf.stepWith_eq he
  · intro hadd
    have hstep := stepWith_unrecognised he (cfg := cfg) ((congrArg _ hA0).trans (decodeOpcode_add_eq_none hadd))
    rw [show s.fetchByte 0 = 0xA0 from hA0] at hstep
    exact hstep

end Sys2Proof.Machine
end

section
/-! Proofs for 40_engine_cycle.md section 1 and 60_exceptions.md: what a step can come to, and what holds of every
step and of every run. -/

namespace Sys2Proof.Machine

open Sys2Proof.Safety

/-! ### The outcomes of a step -/

/-- Everything a step can come to, in the order of the listing of R73. -/
inductive StepResult (cfg : Config) (s : State) : State → Prop
  /-- The step is not enabled. -/
  | idle (he : s.enabled = false) : StepResult cfg s s
  /-- UNRECOGNIZED_OPCODE (R78). -/
  | unrecognised (he : s.enabled = true) (hd : decodeOpcode cfg (s.fetchByte 0) = none) :
      StepResult cfg s (s.latch ⟨.unrecognizedOpcode, s.pc.setWidth 9, s.fetchByte 0⟩)
  /-- MEM_BOUNDS_OPERAND (R77). -/
  | operandMissing {op : Opcode} (he : s.enabled = true) (hop : decodeOpcode cfg (s.fetchByte 0) = some op)
      (hout : 255 < s.pc.toNat + op.operandCount) :
      StepResult cfg s (s.latch ⟨.memBoundsOperand, 256, s.fetchByte 0⟩)
  /-- REG_BOUNDS (R79). -/
  | illegalRegister {i : Instr} {k : Nat} {v : Byte} (he : s.enabled = true) (hf : Fetched cfg s i)
      (hi : firstIllegal i = some (k, v)) : StepResult cfg s (s.raise .regBounds k v)
  /-- The instruction executes and the pc moves past it (R81). -/
  | completes {i : Instr} {u : State} (he : s.enabled = true) (hf : Fetched cfg s i) (hu : Acts i s u)
      (hin : s.pc.toNat + i.size ≤ 255) : StepResult cfg s (u.setPc (s.pc + BitVec.ofNat 8 i.size))
  /-- HLT executes at 255 (R82). -/
  | haltsAtTop (he : s.enabled = true) (hf : Fetched cfg s .hlt) (htop : s.pc.toNat = 255) :
      StepResult cfg s s.stop
  /-- The instruction executes and ends at 255: MEM_BOUNDS_FETCH (R82). -/
  | endsAtTop {i : Instr} {u : State} (he : s.enabled = true) (hf : Fetched cfg s i) (hu : Acts i s u)
      (hne : i.opcode ≠ .hlt) (htop : s.pc.toNat + i.size = 256) :
      StepResult cfg s (u.latch ⟨.memBoundsFetch, 256, i.opcode.byte⟩)

theorem opcode_eq_hlt {i : Instr} (h : i.opcode = .hlt) : i = .hlt := by
  cases i with
  | hlt => rfl
  | _ => cases h

/-- An instruction other than HLT that ends at 255 does its action and latches MEM_BOUNDS_FETCH (R82). -/
theorem exec_of_acts_at_top {i : Instr} {s u : State} (htop : s.pc.toNat + i.size = 256) (hne : i.opcode ≠ .hlt)
    (hu : Acts i s u) : exec i s = .next (u.latch ⟨.memBoundsFetch, 256, i.opcode.byte⟩) := by
  rw [exec_of_acts (by omega) hu, advance_at_256 (by rwa [(acts_frame hu).1]) hne]

/-- HLT at 255 clears the running flag and leaves the pc (R82). -/
theorem exec_hlt_at_top {s : State} (htop : s.pc.toNat = 255) : exec .hlt s = .next s.stop := by
  rw [exec_of_acts (i := .hlt) (u := s.stop) (by rw [size_hlt]; omega) rfl,
    advance_halt (by rw [stop_pc, size_hlt]; omega) rfl]

theorem stepResult_of_stepWith {cfg : Config} {s t : State} (h : stepWith cfg s = .next t) : StepResult cfg s t := by
  cases he : s.enabled with
  | false =>
    obtain rfl : s = t := Host.Outcome.next.inj ((stepWith_disabled he).symm.trans h)
    exact .idle he
  | true =>
    obtain ⟨hd, -⟩ | ⟨op, hop, hout, -⟩ | ⟨i, hop, hin, hbs, e⟩ := cycle_cases cfg s
    · obtain rfl := Host.Outcome.next.inj ((stepWith_unrecognised he hd).symm.trans h)
      exact .unrecognised he hd
    · obtain rfl := Host.Outcome.next.inj ((stepWith_operandMissing he hop hout).symm.trans h)
      exact .operandMissing he hop hout
    · have hf := fetched_of_fetchOperands hop hin hbs
      rw [hf.stepWith_eq he] at h
      obtain ⟨hout, -⟩ | ⟨-, k, v, hi, rfl⟩ | ⟨-, -, u, hu, -⟩ := exec_cases h
      · omega
      · exact .illegalRegister he hf hi
      · by_cases hin' : s.pc.toNat + i.size ≤ 255
        · obtain rfl := Host.Outcome.next.inj ((exec_of_acts_inside hin' hu).symm.trans h)
          exact .completes he hf hu hin'
        · have htop : s.pc.toNat + i.size = 256 := by omega
          by_cases hne : i.opcode = .hlt
          · obtain rfl := opcode_eq_hlt hne
            rw [size_hlt] at htop
            have htop : s.pc.toNat = 255 := by omega
            obtain rfl := Host.Outcome.next.inj ((exec_hlt_at_top htop).symm.trans h)
            exact .haltsAtTop he hf htop
          · obtain rfl := Host.Outcome.next.inj ((exec_of_acts_at_top htop hne hu).symm.trans h)
            exact .endsAtTop he hf hu hne htop

/-! ### The running flag, the fault latch and the pc -/

theorem latch_enabled (s : State) (f : FaultRecord) : (s.latch f).enabled = false :=
  (enabled_eq_false_iff _).2 (.inr nofun)

theorem stop_enabled (s : State) : s.stop.enabled = false :=
  (enabled_eq_false_iff _).2 (.inl rfl)

theorem fault_of_enabled {s : State} (he : s.enabled = true) : s.fault = none := ((enabled_iff s).1 he).2

theorem running_of_enabled {s : State} (he : s.enabled = true) : s.running = true := ((enabled_iff s).1 he).1

/-- The execute action of HLT clears the running flag, and that of no other instruction touches it (R95). -/
theorem acts_running {i : Instr} {s u : State} (h : Acts i s u) :
    u.running = if i = .hlt then false else s.running := by
  have hne (hop : i.opcode ≠ .hlt) : i ≠ .hlt := fun e => hop (congrArg Instr.opcode e)
  obtain ⟨r, v, hop, rfl⟩ | ⟨v, hop, rfl⟩ | ⟨rfl, rfl⟩ := acts_cases h
  · rw [if_neg (hne hop), writeReg_running]
  · rw [if_neg (hne hop), emit_running]
  · rfl

theorem acts_running_of_ne {i : Instr} {s u : State} (hop : i.opcode ≠ .hlt) (h : Acts i s u) :
    u.running = s.running :=
  (acts_running h).trans (if_neg fun e => hop (congrArg Instr.opcode e))

theorem exec_running {i : Instr} {s t : State} (h : exec i s = .next t) :
    t.running = if i = .hlt then false else s.running := by
  obtain ⟨hout, rfl⟩ | ⟨-, k, v, hi, rfl⟩ | ⟨-, -, u, hu, rfl⟩ := exec_cases h
  · have hpc := s.pc.isLt
    have hne : i ≠ .hlt := by rintro rfl; rw [size_hlt] at hout; omega
    rw [if_neg hne, latch_running]
  · have hne : i ≠ .hlt := by rintro rfl; cases hi
    rw [if_neg hne, raise_running]
  · rw [advance_running, acts_running hu]

theorem acts_fault {i : Instr} {s u : State} (he : s.enabled = true) (h : Acts i s u) : u.fault = none := by
  rw [(acts_frame h).2.2.1, fault_of_enabled he]

/-- Settles O28: `exec_running`, and a step that changes the flag executed an instruction, which was HLT. -/
theorem onlyHltClearsRunning : Obligations.OnlyHltClearsRunning := by
  refine ⟨fun i s t => exec_running, fun cfg s t h hne => ?_⟩
  cases stepResult_of_stepWith h with
  | idle | unrecognised | operandMissing | illegalRegister => exact absurd rfl hne
  | haltsAtTop he hf => exact ⟨he, hf.opcodeByte, rfl, (stop_fault s).trans (fault_of_enabled he)⟩
  | endsAtTop _ _ hu hop => exact absurd (acts_running_of_ne hop hu) hne
  | @completes i u he hf hu =>
    by_cases hop : i.opcode = .hlt
    · obtain rfl := opcode_eq_hlt hop
      exact ⟨he, hf.opcodeByte, acts_running hu, (setPc_fault u _).trans (acts_fault he hu)⟩
    · exact absurd (acts_running_of_ne hop hu) hne

/-- The pc of a completed instruction, as a number (R81). -/
theorem toNat_pc_add_size {s : State} {i : Instr} (hin : s.pc.toNat + i.size ≤ 255) :
    (s.pc + BitVec.ofNat 8 i.size).toNat = s.pc.toNat + i.size := by
  have := size_le i
  rw [BitVec.toNat_add, BitVec.toNat_ofNat]
  omega

/-- Settles O29: only a completed instruction leaves the step enabled, and it moves the pc by its size; every other
outcome keeps the pc. -/
theorem pcNeverDecreases : Obligations.PcNeverDecreases := by
  intro cfg s t h
  cases stepResult_of_stepWith h with
  | idle he => exact ⟨le_rfl, fun het => absurd (he.symm.trans het) nofun⟩
  | unrecognised | operandMissing | illegalRegister =>
    exact ⟨le_rfl, fun het => absurd ((latch_enabled _ _).symm.trans het) nofun⟩
  | haltsAtTop => exact ⟨le_rfl, fun het => absurd ((stop_enabled _).symm.trans het) nofun⟩
  | endsAtTop he hf hu =>
    rw [latch_pc, (acts_frame hu).1]
    exact ⟨le_rfl, fun het => absurd ((latch_enabled _ _).symm.trans het) nofun⟩
  | @completes i u he hf hu hin =>
    rw [setPc_pc, toNat_pc_add_size hin, size_eq]
    exact ⟨by omega, fun _ => by omega⟩

/-! ### Faults -/

/-- Settles O19: the three faults before the execute action change the latch alone, and the one after it comes with an
action that touches neither pc, `fl` nor memory (`acts_frame`) and, not being that of HLT, keeps the running flag. -/
theorem faultsArePrecise : Obligations.FaultsArePrecise := by
  intro cfg s t f he h hf
  have hrun := running_of_enabled he
  cases stepResult_of_stepWith h with
  | idle => exact absurd (fault_of_enabled he) (by rw [hf]; nofun)
  | unrecognised | operandMissing | illegalRegister =>
    obtain rfl := Option.some.inj hf
    exact ⟨rfl, hrun, rfl, rfl, fun _ => rfl, nofun⟩
  | haltsAtTop => exact absurd (fault_of_enabled he) (by rw [← stop_fault, hf]; nofun)
  | completes _ _ hu => exact absurd (acts_fault he hu) (by rw [← setPc_fault, hf]; nofun)
  | endsAtTop _ hi hu hop =>
    obtain rfl := Option.some.inj hf
    obtain ⟨hpc, hfl, -, hmem⟩ := acts_frame hu
    exact ⟨hpc, (acts_running_of_ne hop hu).trans hrun, hfl, hmem, fun hc => absurd rfl hc,
      fun _ => ⟨rfl, hi.opcodeByte.symm⟩⟩

/-! ### The invariant -/

/-- Reading an instruction byte depends on the pc and the memory alone (R74, R76). -/
theorem fetchByte_congr {s t : State} (hpc : t.pc = s.pc) (hmem : t.mem = s.mem) (k : Nat) :
    t.fetchByte k = s.fetchByte k := by
  rw [State.fetchByte, State.fetchByte, State.addrOf, State.addrOf, hpc, hmem]

/-- What a record says is about the pc and the memory alone. -/
theorem faultExplained_congr {cfg : Config} {s t : State} {f : FaultRecord} (hpc : t.pc = s.pc) (hmem : t.mem = s.mem)
    (h : FaultExplained cfg s f) : FaultExplained cfg t f := by
  unfold FaultExplained at h ⊢
  simpa only [fetchByte_congr hpc hmem, hpc] using h

theorem firstIllegal_mul {a b : Byte} {k : Nat} {v : Byte} (h : firstIllegal (.mul a b) = some (k, v)) :
    (k = 1 ∧ v = a ∧ 7 < a.toNat) ∨ (k = 2 ∧ v = b ∧ a.toNat ≤ 7 ∧ 7 < b.toNat) := by
  simp only [firstIllegal] at h
  split at h
  next ha =>
    split at h
    next hb => cases h
    next hb => cases h; exact .inr ⟨rfl, rfl, ha, by omega⟩
  next ha => cases h; exact .inl ⟨rfl, rfl, by omega⟩

theorem firstIllegal_prn {a : Byte} {k : Nat} {v : Byte} (h : firstIllegal (.prn a) = some (k, v)) :
    k = 1 ∧ v = a ∧ 7 < a.toNat := by
  simp only [firstIllegal] at h
  split at h
  next ha => cases h
  next ha => cases h; exact ⟨rfl, rfl, by omega⟩

/-- The register operand the index check stops at: it stands `k` places after the pc, is greater than 7, and the one
before it, if there is one, is legal (R79). -/
theorem Fetched.illegal {cfg : Config} {s : State} {i : Instr} {k : Nat} {v : Byte} (hf : Fetched cfg s i)
    (hi : firstIllegal i = some (k, v)) : v = s.fetchByte k ∧ 7 < v.toNat ∧
      (k = 1 ∧ 1 ≤ regOperands i.opcode ∨ k = 2 ∧ regOperands i.opcode = 2 ∧ (s.fetchByte 1).toNat ≤ 7) := by
  cases i with
  | hlt => cases hi
  | ldi a _ | prn a =>
    obtain ⟨rfl, rfl, hv⟩ := firstIllegal_prn hi
    exact ⟨(hf.firstOperand rfl).symm, hv, .inl ⟨rfl, le_rfl⟩⟩
  | mul a b | add a b =>
    have ha : s.fetchByte 1 = a := hf.firstOperand rfl
    obtain ⟨rfl, rfl, hv⟩ | ⟨rfl, rfl, hle, hv⟩ := firstIllegal_mul hi
    · exact ⟨ha.symm, hv, .inl ⟨rfl, Nat.le_succ 1⟩⟩
    · exact ⟨(hf.secondOperand rfl).symm, hv, .inr ⟨rfl, rfl, ha ▸ hle⟩⟩

theorem regOperands_le (op : Opcode) : regOperands op ≤ op.operandCount := by cases op <;> decide

/-- The record of a REG_BOUNDS fault explains itself (R100). -/
theorem faultExplained_regBounds {cfg : Config} {s : State} {i : Instr} {k : Nat} {v : Byte} (hf : Fetched cfg s i)
    (hi : firstIllegal i = some (k, v)) : FaultExplained cfg s (s.faultAt .regBounds k v) := by
  obtain ⟨hv, hgt, hk⟩ := hf.illegal hi
  have hin := hf.inside
  have hle := regOperands_le i.opcode
  have hle2 := operandCount_le i.opcode
  have haddr := faultAt_addr s .regBounds k v (by omega)
  rw [size_eq] at hin
  have hbound : (s.faultAt .regBounds k v).addr.toNat ≤ 255 := by omega
  exact ⟨hgt, hbound, i.opcode, k, hf.decodeOpcode_eq, by omega, by omega, haddr, hv, fun hk2 => by omega⟩

/-- A running machine without a fault has the invariant when its memory and `fl` do. -/
theorem inv_of_enabled (cfg : Config) {s : State} (hmem : s.mem.wf = true) (hfl : s.fl = 0)
    (he : s.enabled = true) : Inv cfg s where
  memory := hmem
  flags := hfl
  stopped _ := fault_of_enabled he
  explained f hf := absurd (fault_of_enabled he) (by rw [hf]; nofun)
  halted hrun := absurd (running_of_enabled he) (by rw [hrun]; nofun)

/-- A fault of a running machine keeps the invariant when its record is explained. -/
theorem inv_latch {cfg : Config} {s : State} {f : FaultRecord} (hmem : s.mem.wf = true) (hfl : s.fl = 0)
    (hrun : s.running = true) (hf : FaultExplained cfg s f) : Inv cfg (s.latch f) where
  memory := hmem
  flags := hfl
  stopped h := absurd hrun (by rw [← latch_running s f, h]; nofun)
  explained g hg := by
    obtain rfl := Option.some.inj hg
    exact faultExplained_congr rfl rfl hf
  halted h := absurd hrun (by rw [← latch_running s f, h]; nofun)

/-- A machine without a fault that stopped after an HLT byte has the invariant. -/
theorem inv_of_halt (cfg : Config) {s : State} (hmem : s.mem.wf = true) (hfl : s.fl = 0) (hf : s.fault = none)
    (hhalt : (1 ≤ s.pc.toNat ∧ s.mem.cell (s.pc.toNat - 1) = 0x01) ∨ (s.pc.toNat = 255 ∧ s.mem.cell 255 = 0x01)) :
    Inv cfg s where
  memory := hmem
  flags := hfl
  stopped _ := hf
  explained f h := absurd hf (by rw [h]; nofun)
  halted _ := hhalt

/-- A completed instruction other than HLT leaves the step enabled. -/
theorem completed_enabled {i : Instr} {s u : State} (he : s.enabled = true) (hu : Acts i s u)
    (hop : i.opcode ≠ .hlt) (p : Byte) : (u.setPc p).enabled = true :=
  (enabled_iff _).2 ⟨(acts_running_of_ne hop hu).trans (running_of_enabled he),
    (setPc_fault u p).trans (acts_fault he hu)⟩

/-- Settles O31: no step writes memory or `fl` (`stepWith_mem`, `stepWith_fl`), each fault's record is explained by the
bytes that led to it, and a halt by the HLT byte that was executed. -/
theorem everyStepKeepsTheInvariant : Obligations.EveryStepKeepsTheInvariant := by
  intro cfg s t hs h
  have hmem : t.mem.wf = true := (congrArg Memory.wf (stepWith_mem h)).trans hs.memory
  have hfl : t.fl = 0 := (stepWith_fl h).trans hs.flags
  cases stepResult_of_stepWith h with
  | idle => exact hs
  | unrecognised he hd =>
    have haddr : (s.pc.setWidth 9).toNat = s.pc.toNat := BitVec.toNat_setWidth_of_le (by decide)
    exact inv_latch hmem hfl (running_of_enabled he) ⟨haddr, rfl, hd⟩
  | operandMissing he hop hout =>
    exact inv_latch hmem hfl (running_of_enabled he) ⟨rfl, rfl, _, hop, hout⟩
  | illegalRegister he hf hi =>
    exact inv_latch hmem hfl (running_of_enabled he) (faultExplained_regBounds hf hi)
  | @completes i u he hf hu hin =>
    by_cases hop : i.opcode = .hlt
    · obtain rfl := opcode_eq_hlt hop
      refine inv_of_halt cfg hmem hfl ((setPc_fault u _).trans (acts_fault he hu)) (.inl ?_)
      obtain ⟨-, -, -, hmem'⟩ := acts_frame hu
      have hcell : u.mem.cell s.pc.toNat = 0x01 := hmem' ▸ hf.opcodeByte
      rw [setPc_pc, setPc_mem, toNat_pc_add_size hin, size_hlt, Nat.add_sub_cancel]
      exact ⟨Nat.le_add_left _ _, hcell⟩
    · exact inv_of_enabled cfg hmem hfl (completed_enabled he hu hop _)
  | haltsAtTop he hf htop =>
    refine inv_of_halt cfg hmem hfl ((stop_fault s).trans (fault_of_enabled he)) (.inr ⟨htop, ?_⟩)
    rw [← htop]
    exact hf.opcodeByte
  | @endsAtTop i u he hf hu hop htop =>
    obtain ⟨hpc, -, -, hmem'⟩ := acts_frame hu
    rw [size_eq] at htop
    have hexp : FaultExplained cfg s ⟨.memBoundsFetch, 256, i.opcode.byte⟩ :=
      ⟨rfl, hf.opcodeByte.symm, i.opcode, hf.opcodeByte ▸ hf.decodeOpcode_eq, hop, by omega⟩
    exact inv_latch hmem hfl ((acts_running_of_ne hop hu).trans (running_of_enabled he))
      (faultExplained_congr hpc hmem' hexp)

/-- Settles O30: the reset state is enabled. -/
theorem invariantHoldsAtReset : Obligations.InvariantHoldsAtReset :=
  fun cfg => inv_of_enabled cfg reset_mem_wf rfl rfl

/-! ### Runs -/

theorem run_succ {cfg : Config} {s t : State} (n : Nat) (h : stepWith cfg s = .next t) :
    (coreWith cfg).run (n + 1) s = (coreWith cfg).run n t := by
  simp only [Host.Core.run, h]

/-- A run that has ended stays where it is (log 1). -/
theorem run_disabled {cfg : Config} {s : State} (n : Nat) (h : s.enabled = false) :
    (coreWith cfg).run n s = .next s := by
  induction n with
  | zero => rfl
  | succ n ih => rw [run_succ n (stepWith_disabled h), ih]

/-- The distance of the pc from 256 bounds the run: each step that leaves it going moves the pc up
(`pcNeverDecreases`), and each keeps the invariant. -/
theorem run_ends (cfg : Config) (n : Nat) (s : State) (hn : 256 - s.pc.toNat ≤ n) :
    ∃ t : State, (coreWith cfg).run n s = .next t ∧ t.enabled = false ∧ (Inv cfg s → Inv cfg t) := by
  induction n generalizing s with
  | zero =>
    have := s.pc.isLt
    omega
  | succ n ih =>
    obtain ⟨t, ht⟩ := stepWith_next cfg s
    have hinv (hs : Inv cfg s) : Inv cfg t := everyStepKeepsTheInvariant cfg s t hs ht
    rw [run_succ n ht]
    cases het : t.enabled with
    | false => exact ⟨t, run_disabled n het, het, hinv⟩
    | true =>
      have hpc := (pcNeverDecreases cfg s t ht).2 het
      obtain ⟨v, hv, hev, hinv'⟩ := ih t (by omega)
      exact ⟨v, hv, hev, hinv' ∘ hinv⟩

/-- With the invariant, a state whose step is not enabled is a clean halt or faulted (R84). -/
theorem inv_cleanHalt_or_faulted {cfg : Config} {s : State} (hs : Inv cfg s) (he : s.enabled = false) :
    s.cleanHalt = true ∨ s.faulted = true := by
  cases hrun : s.running with
  | false => exact .inl (by simp [State.cleanHalt, hrun, hs.stopped hrun])
  | true =>
    obtain hstop | hfault := (enabled_eq_false_iff s).1 he
    · exact absurd (hrun.symm.trans hstop) nofun
    · exact .inr (by simp [State.faulted, hrun, Option.isSome_iff_ne_none.2 hfault])

/-- Settles O32: `run_ends`, and what the invariant says of the state it ends in. -/
theorem everyRunEnds : Obligations.EveryRunEnds := by
  intro cfg s n hn
  obtain ⟨t, ht, het, hinv⟩ := run_ends cfg n s hn
  exact ⟨t, ht, het, fun hs => inv_cleanHalt_or_faulted (hinv hs) het⟩

end Sys2Proof.Machine
end

section
/-! Proofs for 40_engine_cycle.md section 1: the step refines the one listing of R73. -/

namespace Sys2Proof.Machine

open Sys2Proof.Safety

/-! ### The listing at a row of the opcode map -/

/-- The listing of R73 at a row of the opcode map: what `listing` does once the opcode byte is known
(`listing_eq_listingRow`). -/
def listingRow (op : Opcode) (s : State) : State :=
  let pc := s.pc.toNat
  let n := op.operandCount
  let effect := listingExecute op.byte (s.fetchByte 1) (s.fetchByte 2) s
  if 1 ≤ n ∧ 255 < pc + 1 then s.latch ⟨.memBoundsOperand, BitVec.ofNat 9 (pc + 1), op.byte⟩
  else if n = 2 ∧ 255 < pc + 2 then s.latch ⟨.memBoundsOperand, BitVec.ofNat 9 (pc + 2), op.byte⟩
  else if 1 ≤ n ∧ 7 < (s.fetchByte 1).toNat then s.raise .regBounds 1 (s.fetchByte 1)
  else if regOperands op = 2 ∧ 7 < (s.fetchByte 2).toNat then s.raise .regBounds 2 (s.fetchByte 2)
  else if pc + 1 + n ≤ 255 then effect.setPc (BitVec.ofNat 8 (pc + 1 + n))
  else if op.byte ≠ 0x01 then effect.latch ⟨.memBoundsFetch, BitVec.ofNat 9 (pc + 1 + n), op.byte⟩
  else effect

/-- The listing's test for an ALU instruction. -/
theorem isAlu_iff {cfg : Config} {op : Opcode} (hadd : op = .add → cfg.addFetchable = true) :
    (op.byte = 0xA2 ∨ (op.byte = 0xA0 ∧ cfg.addFetchable = true)) ↔ regOperands op = 2 := by
  cases op with
  | add => simp [hadd rfl, Opcode.byte, regOperands]
  | _ => simp [Opcode.byte, regOperands]

/-- The listing's operand count. -/
theorem listingCount_eq (op : Opcode) :
    (if op.byte = 0x82 ∨ regOperands op = 2 then 2 else if op.byte = 0x47 then 1 else 0) = op.operandCount := by
  cases op <;> decide

/-- The listing's test for a recognised opcode. -/
theorem listingRecognises (op : Opcode) :
    op.byte = 0x82 ∨ op.byte = 0x47 ∨ regOperands op = 2 ∨ op.byte = 0x01 := by
  cases op <;> decide

theorem listing_eq_listingRow {cfg : Config} {s : State} {op : Opcode} (he : s.enabled = true)
    (hop : decodeOpcode cfg (s.fetchByte 0) = some op) : listing cfg s = listingRow op s := by
  obtain ⟨hir, hadd⟩ := decodeOpcode_some hop
  have hir : s.mem.cell s.pc.toNat = op.byte := hir
  simp only [listing, if_pos ((enabled_iff s).1 he), hir, isAlu_iff hadd, listingCount_eq, listingRecognises,
    not_true, if_false]
  rfl

theorem listing_idle {cfg : Config} {s : State} (he : s.enabled = false) : listing cfg s = s := by
  have hen : ¬ (s.running = true ∧ s.fault = none) := by rw [← enabled_iff, he]; nofun
  exact if_neg hen

/-- The listing's own test for a byte that is no opcode is the decoder's (R78). -/
theorem listing_unrecognised {cfg : Config} {s : State} (he : s.enabled = true)
    (hd : decodeOpcode cfg (s.fetchByte 0) = none) :
    listing cfg s = s.latch ⟨.unrecognizedOpcode, s.pc.setWidth 9, s.fetchByte 0⟩ := by
  have hnot {op : Opcode} (hir : s.fetchByte 0 = op.byte) (hadd : op = .add → cfg.addFetchable = true) : False :=
    absurd (hd.symm.trans (decodeOpcode_eq_some_iff.2 ⟨hir, hadd⟩)) nofun
  have hunknown : ¬ (s.fetchByte 0 = 0x82 ∨ s.fetchByte 0 = 0x47 ∨
      (s.fetchByte 0 = 0xA2 ∨ s.fetchByte 0 = 0xA0 ∧ cfg.addFetchable = true) ∨ s.fetchByte 0 = 0x01) := by
    rintro (hldi | hprn | (hmul | ⟨hadd, hcfg⟩) | hhlt)
    · exact hnot (op := .ldi) hldi nofun
    · exact hnot (op := .prn) hprn nofun
    · exact hnot (op := .mul) hmul nofun
    · exact hnot (op := .add) hadd fun _ => hcfg
    · exact hnot (op := .hlt) hhlt nofun
  rw [← BitVec.ofNat_toNat]
  exact (if_pos ((enabled_iff s).1 he)).trans (if_pos hunknown)

/-! ### The outcomes at a row -/

theorem listingRow_operandMissing {s : State} {op : Opcode} (hout : 255 < s.pc.toNat + op.operandCount) :
    listingRow op s = s.latch ⟨.memBoundsOperand, 256, op.byte⟩ := by
  have hpc := s.pc.isLt
  have hle := operandCount_le op
  unfold listingRow
  by_cases h1 : 255 < s.pc.toNat + 1
  · rw [if_pos (by omega), show s.pc.toNat + 1 = 256 by omega]
    rfl
  · rw [if_neg (by omega), if_pos (by omega), show s.pc.toNat + 2 = 256 by omega]
    rfl

section Inside
variable {s : State} {op : Opcode} (hin : s.pc.toNat + op.operandCount ≤ 255)
include hin

theorem listingRow_illegal_first (hn : 1 ≤ op.operandCount) (ha : 7 < (s.fetchByte 1).toNat) :
    listingRow op s = s.raise .regBounds 1 (s.fetchByte 1) := by
  unfold listingRow
  rw [if_neg (by omega), if_neg (by omega), if_pos ⟨hn, ha⟩]

theorem listingRow_illegal_second (hr : regOperands op = 2) (ha : (s.fetchByte 1).toNat ≤ 7)
    (hb : 7 < (s.fetchByte 2).toNat) : listingRow op s = s.raise .regBounds 2 (s.fetchByte 2) := by
  unfold listingRow
  rw [if_neg (by omega), if_neg (by omega), if_neg (by omega), if_pos ⟨hr, hb⟩]

/-- With every register operand legal the listing executes and goes on to its last lines. -/
theorem listingRow_legal (ha : 1 ≤ op.operandCount → (s.fetchByte 1).toNat ≤ 7)
    (hb : regOperands op = 2 → (s.fetchByte 2).toNat ≤ 7) :
    listingRow op s =
      let u := listingExecute op.byte (s.fetchByte 1) (s.fetchByte 2) s
      if s.pc.toNat + 1 + op.operandCount ≤ 255 then u.setPc (BitVec.ofNat 8 (s.pc.toNat + 1 + op.operandCount))
      else if op.byte ≠ 0x01 then
        u.latch ⟨.memBoundsFetch, BitVec.ofNat 9 (s.pc.toNat + 1 + op.operandCount), op.byte⟩
      else u := by
  unfold listingRow
  rw [if_neg (by omega), if_neg (by omega), if_neg (by omega), if_neg (by omega)]

end Inside

/-! ### The execute line -/

/-- The listing reads the register file by the operand byte (R20). -/
theorem getElem?_reg {s : State} {a : Byte} {r : Fin 8} (hr : r.val = a.toNat) :
    s.x[a.toNat]?.getD 0 = s.readReg r := by
  rw [← hr, Vector.getElem?_eq_getElem r.isLt]
  rfl

/-- The listing writes the register file by the operand byte (R20). -/
theorem setIfInBounds_reg {s : State} {a : Byte} {r : Fin 8} (v : Byte) (hr : r.val = a.toNat) :
    { s with x := s.x.setIfInBounds a.toNat v } = s.writeReg r v := by
  have hset : s.x.setIfInBounds r v = s.x.set r v :=
    Vector.ext fun k hk => by rw [Vector.getElem_setIfInBounds, Vector.getElem_set]
  rw [← hr, State.writeReg, hset]

/-- The execute line of the listing is the execute action of the instruction at the pc. -/
theorem listingExecute_eq_of_acts {cfg : Config} {s u : State} {i : Instr} (hf : Fetched cfg s i) (hu : Acts i s u) :
    listingExecute i.opcode.byte (s.fetchByte 1) (s.fetchByte 2) s = u := by
  cases i with
  | ldi a imm =>
    obtain ⟨r, hr, rfl⟩ := hu
    rw [hf.firstOperand rfl, hf.secondOperand rfl]
    exact setIfInBounds_reg imm hr
  | prn a =>
    obtain ⟨r, hr, rfl⟩ := hu
    rw [hf.firstOperand rfl, State.emit, ← getElem?_reg hr]
    rfl
  | mul a b =>
    obtain ⟨r, q, hr, hq, rfl⟩ := hu
    rw [hf.firstOperand rfl, hf.secondOperand rfl, State.alu, aluResult_mul_eq,
      ← getElem?_reg hr, ← getElem?_reg hq]
    exact setIfInBounds_reg _ hr
  | add a b =>
    obtain ⟨r, q, hr, hq, rfl⟩ := hu
    rw [hf.firstOperand rfl, hf.secondOperand rfl, State.alu, aluResult_add_eq,
      ← getElem?_reg hr, ← getElem?_reg hq]
    exact setIfInBounds_reg _ hr
  | hlt => exact Eq.symm hu

/-- The register checks of the listing pass for an instruction whose register operands are legal (R66). -/
theorem Fetched.legal {cfg : Config} {s : State} {i : Instr} (hf : Fetched cfg s i) (hw : i.WellFormed) :
    (1 ≤ i.opcode.operandCount → (s.fetchByte 1).toNat ≤ 7) ∧
      (regOperands i.opcode = 2 → (s.fetchByte 2).toNat ≤ 7) := by
  cases i with
  | hlt => exact ⟨nofun, nofun⟩
  | ldi a imm => exact ⟨fun _ => hf.firstOperand rfl ▸ hw, nofun⟩
  | prn a => exact ⟨fun _ => hf.firstOperand rfl ▸ hw, nofun⟩
  | mul a b | add a b =>
    obtain ⟨ha, hb⟩ := hw
    exact ⟨fun _ => hf.firstOperand rfl ▸ ha, fun _ => hf.secondOperand rfl ▸ hb⟩

/-- At an instruction with legal register operands the listing executes it and goes on to its last lines. -/
theorem listing_of_acts {cfg : Config} {s u : State} {i : Instr} (he : s.enabled = true) (hf : Fetched cfg s i)
    (hu : Acts i s u) :
    listing cfg s =
      if s.pc.toNat + i.size ≤ 255 then u.setPc (BitVec.ofNat 8 (s.pc.toNat + i.size))
      else if i.opcode.byte ≠ 0x01 then
        u.latch ⟨.memBoundsFetch, BitVec.ofNat 9 (s.pc.toNat + i.size), i.opcode.byte⟩
      else u := by
  obtain ⟨ha, hb⟩ := hf.legal (acts_wellFormed hu)
  have hin := hf.inside
  rw [size_eq] at hin ⊢
  rw [listing_eq_listingRow he hf.decodeOpcode_eq, listingRow_legal (by omega) ha hb, listingExecute_eq_of_acts hf hu,
    Nat.add_assoc]

/-- Settles O6: each outcome of the step (`stepResult_of_stepWith`) is what the listing gives there. -/
theorem stepIsTheListing : Obligations.StepIsTheListing := by
  intro cfg s
  obtain ⟨t, ht⟩ := stepWith_next cfg s
  suffices hlist : listing cfg s = t by rw [ht, hlist]
  cases stepResult_of_stepWith ht with
  | idle he => exact listing_idle he
  | unrecognised he hd => exact listing_unrecognised he hd
  | operandMissing he hop hout =>
    rw [listing_eq_listingRow he hop, listingRow_operandMissing hout, (decodeOpcode_some hop).1]
  | @illegalRegister i k v he hf hi =>
    have hin := hf.inside
    rw [size_eq] at hin
    rw [listing_eq_listingRow he hf.decodeOpcode_eq]
    obtain ⟨rfl, hv, ⟨rfl, hr⟩ | ⟨rfl, hr, ha⟩⟩ := hf.illegal hi
    · exact listingRow_illegal_first (by omega) (hr.trans (regOperands_le _)) hv
    · exact listingRow_illegal_second (by omega) hr ha hv
  | @completes i u he hf hu hin =>
    rw [listing_of_acts he hf hu, if_pos hin, BitVec.ofNat_add, BitVec.ofNat_toNat, BitVec.setWidth_eq]
  | haltsAtTop he hf htop =>
    rw [listing_of_acts (i := .hlt) he hf rfl, if_neg (by rw [size_hlt]; omega), if_neg (by decide)]
  | @endsAtTop i u he hf hu hop htop =>
    have hbyte : i.opcode.byte ≠ 0x01 := fun e => hop (opcodeByte_injective e)
    rw [listing_of_acts he hf hu, if_neg (by omega), if_pos hbyte, htop]
    rfl

end Sys2Proof.Machine
end

section
/-! Proofs for 10_state.md: the frames of the registers, the output stream and the memory, and what does not depend on
a register (R20). -/

namespace Sys2Proof.Machine

open Sys2Proof.Safety

/-! ### The destination register -/

theorem acts_reg_other {i : Instr} {s u : State} {q : Fin 8} (h : Acts i s u)
    (hq : ∀ a, destByte i = some a → a.toNat ≠ q.val) : u.readReg q = s.readReg q := by
  have other {r : Fin 8} {a : Byte} (hr : r.val = a.toNat) (hdest : destByte i = some a) : q ≠ r :=
    fun e => hq a hdest (by rw [e, hr])
  cases i with
  | ldi a imm =>
    obtain ⟨r, hr, rfl⟩ := h
    exact readReg_writeReg_other s r q imm (other hr rfl)
  | prn a => obtain ⟨r, -, rfl⟩ := h; rfl
  | mul a b | add a b =>
    obtain ⟨r, p, hr, -, rfl⟩ := h
    exact alu_readReg_other s _ r p q (other hr rfl)
  | hlt => exact congrArg (·.readReg q) h

/-- Settles O21: only the execute action writes a register, and that is the destination (`acts_reg_other`). -/
theorem onlyTheDestinationRegisterChanges : Obligations.OnlyTheDestinationRegisterChanges := by
  intro i s t q h hq
  obtain ⟨-, rfl⟩ | ⟨-, k, v, -, rfl⟩ | ⟨-, -, u, hu, rfl⟩ := exec_cases h
  · rfl
  · rfl
  · exact (advance_readReg u i q).trans (acts_reg_other hu hq)

/-! ### Maps of the state that leave the control alone -/

/-- A map of states that leaves the pc alone and does not depend on the latch or the pc. -/
structure ControlFree (F : State → State) : Prop where
  pc_eq : ∀ s, (F s).pc = s.pc
  latch_eq : ∀ s f, F (s.latch f) = (F s).latch f
  setPc_eq : ∀ s p, F (s.setPc p) = (F s).setPc p

section ControlFree
variable {F : State → State} (hF : ControlFree F)
include hF

theorem ControlFree.raise_eq (s : State) (c : FaultCause) (k : Nat) (v : Byte) :
    F (s.raise c k v) = (F s).raise c k v := by
  rw [State.raise, State.raise, State.faultAt, State.faultAt, State.addrOf, State.addrOf, hF.pc_eq, hF.latch_eq]

/-- The sequencer sees of the instruction its row of the opcode map only (R81, R82). -/
theorem ControlFree.advance_eq {i i' : Instr} (hop : i'.opcode = i.opcode) (s : State) :
    F (s.advance i) = (F s).advance i' := by
  have hsize : i'.size = i.size := by rw [size_eq, size_eq, hop]
  obtain ⟨h, e⟩ | ⟨h, hi, e⟩ | ⟨h, hi, e⟩ := advance_cases s i
  · rw [e, hF.setPc_eq, advance_inside (by rwa [hF.pc_eq, hsize]), hF.pc_eq, hsize]
  · rw [e, advance_halt (by rwa [hF.pc_eq, hsize]) (hop.trans hi)]
  · rw [e, hF.raise_eq, advance_outside (by rwa [hF.pc_eq, hsize]) (by rwa [hop]), hsize, hop]

/-- An execute action that maps to an execute action carries the whole instruction with it. -/
theorem ControlFree.exec_eq {i i' : Instr} {s t : State} (hop : i'.opcode = i.opcode)
    (hill : firstIllegal i' = firstIllegal i) (hacts : ∀ u, Acts i s u → Acts i' (F s) (F u))
    (h : exec i s = .next t) : exec i' (F s) = .next (F t) := by
  have hsize : (F s).pc.toNat + i'.size = s.pc.toNat + i.size := by rw [hF.pc_eq, size_eq, size_eq, hop]
  obtain ⟨hout, rfl⟩ | ⟨hin, k, v, hi, rfl⟩ | ⟨hin, -, u, hu, rfl⟩ := exec_cases h
  · rw [exec_outside (by rwa [hsize]), hF.latch_eq, hop]
  · rw [exec_illegal (by rwa [hsize]) (hill.trans hi), hF.raise_eq]
  · rw [exec_of_acts (by rwa [hsize]) (hacts u hu), hF.advance_eq hop]

end ControlFree

/-! ### A register that no operand names -/

theorem writeReg_controlFree (q : Fin 8) (v : Byte) : ControlFree (·.writeReg q v) :=
  ⟨fun _ => rfl, fun _ _ => rfl, fun _ _ => rfl⟩

theorem writeReg_comm (s : State) {r q : Fin 8} (u v : Byte) (h : r ≠ q) :
    (s.writeReg r u).writeReg q v = (s.writeReg q v).writeReg r u :=
  congrArg (fun x => { s with x := x }) (Vector.set_comm u v (Fin.val_ne_of_ne h))

theorem alu_writeReg_other (s : State) (o : AluOp) {a b q : Fin 8} (v : Byte) (ha : a ≠ q) (hb : b ≠ q) :
    (s.writeReg q v).alu o a b = (s.alu o a b).writeReg q v := by
  rw [State.alu, State.alu, readReg_writeReg_other s q a v ha, readReg_writeReg_other s q b v hb,
    writeReg_comm s _ v ha]

theorem acts_writeReg_other {i : Instr} {s u : State} {q : Fin 8} (v : Byte)
    (hq : ∀ a ∈ registerBytes i, a.toNat ≠ q.val) (h : Acts i s u) : Acts i (s.writeReg q v) (u.writeReg q v) := by
  have other {r : Fin 8} {a : Byte} (hr : r.val = a.toNat) (ha : a ∈ registerBytes i) : r ≠ q :=
    fun e => hq a ha (by rw [← hr, e])
  cases i with
  | ldi a imm =>
    obtain ⟨r, hr, rfl⟩ := h
    exact ⟨r, hr, writeReg_comm s imm v (other hr List.mem_cons_self)⟩
  | prn a =>
    obtain ⟨r, hr, rfl⟩ := h
    have hread := readReg_writeReg_other s q r v (other hr List.mem_cons_self)
    exact ⟨r, hr, by rw [hread]; rfl⟩
  | mul a b | add a b =>
    obtain ⟨r, p, hr, hp, rfl⟩ := h
    have hr' := other hr List.mem_cons_self
    have hp' := other hp (List.mem_cons_of_mem _ List.mem_cons_self)
    exact ⟨r, p, hr, hp, (alu_writeReg_other s _ v hr' hp').symm⟩
  | hlt => exact congrArg (·.writeReg q v) h

/-- Settles O22: the checks and the sequencer read no register (`ControlFree.exec_eq`), and the execute action only
those that are named (`acts_writeReg_other`). -/
theorem unnamedRegistersAreNotRead : Obligations.UnnamedRegistersAreNotRead := by
  intro i s t q v h hq
  exact (writeReg_controlFree q v).exec_eq rfl rfl (fun _ => acts_writeReg_other v hq) h

/-! ### Renaming the registers -/

theorem regByte_toNat (r : Fin 8) : (regByte r).toNat = r.val := by
  have := r.isLt
  rw [regByte, BitVec.toNat_ofNat]
  omega

/-- A legal operand byte names one register. -/
theorem eq_of_regByte {p r : Fin 8} (h : p.val = (regByte r).toNat) : p = r :=
  Fin.ext (h.trans (regByte_toNat r))

theorem regByte_legal (r : Fin 8) : legalReg (regByte r) := by
  rw [legalReg, regByte_toNat]
  omega

theorem renamed_controlFree (old : Fin 8 → Fin 8) : ControlFree (renamed old) :=
  ⟨fun _ => rfl, fun _ _ => rfl, fun _ _ => rfl⟩

@[simp] theorem readReg_renamed (old : Fin 8 → Fin 8) (s : State) (r : Fin 8) :
    (renamed old s).readReg r = s.readReg (old r) := by
  simp [State.readReg, renamed]

section Renaming
variable {new old : Fin 8 → Fin 8} (hnew : ∀ r, new (old r) = r) (hold : ∀ r, old (new r) = r)
include hnew hold

theorem renamed_writeReg (s : State) (r : Fin 8) (v : Byte) :
    renamed old (s.writeReg r v) = (renamed old s).writeReg (new r) v := by
  have hx : (renamed old (s.writeReg r v)).x = ((renamed old s).writeReg (new r) v).x := by
    refine Vector.ext fun k hk => ?_
    change (renamed old (s.writeReg r v)).readReg ⟨k, hk⟩ = ((renamed old s).writeReg (new r) v).readReg ⟨k, hk⟩
    by_cases hr : (⟨k, hk⟩ : Fin 8) = new r
    · rw [hr, readReg_renamed, hold, readReg_writeReg_same, readReg_writeReg_same]
    · have hr' : old ⟨k, hk⟩ ≠ r := fun e => hr (by rw [← e, hnew])
      rw [readReg_renamed, readReg_writeReg_other _ _ _ _ hr', readReg_writeReg_other _ _ _ _ hr, readReg_renamed]
  exact congrArg (fun x => { s with x := x }) hx

theorem renamed_alu (s : State) (o : AluOp) (a b : Fin 8) :
    renamed old (s.alu o a b) = (renamed old s).alu o (new a) (new b) := by
  rw [State.alu, State.alu, renamed_writeReg hnew hold, readReg_renamed, readReg_renamed, hold, hold]

/-- The action of MUL or ADD (`Acts`) on the renamed state is the renamed action. -/
theorem acts_renamed_alu (o : AluOp) {s u : State} {r q : Fin 8}
    (h : ∃ p p' : Fin 8, p.val = (regByte r).toNat ∧ p'.val = (regByte q).toNat ∧ u = s.alu o p p') :
    ∃ p p' : Fin 8, p.val = (regByte (new r)).toNat ∧ p'.val = (regByte (new q)).toNat ∧
      renamed old u = (renamed old s).alu o p p' := by
  obtain ⟨p, p', hp, hp', rfl⟩ := h
  rw [eq_of_regByte hp, eq_of_regByte hp', renamed_alu hnew hold]
  exact ⟨new r, new q, (regByte_toNat _).symm, (regByte_toNat _).symm, rfl⟩

end Renaming

/-- Renaming maps the instruction with legal operands: its checks pass on both sides, so the execute action decides. -/
theorem exec_renamed {old : Fin 8 → Fin 8} {i i' : Instr} {s t : State} (hop : i'.opcode = i.opcode)
    (hw : i.WellFormed) (hw' : i'.WellFormed) (hacts : ∀ u, Acts i s u → Acts i' (renamed old s) (renamed old u))
    (h : exec i s = .next t) : exec i' (renamed old s) = .next (renamed old t) := by
  have hill : firstIllegal i' = firstIllegal i := by rw [(firstIllegal_none i).2 hw, (firstIllegal_none i').2 hw']
  exact (renamed_controlFree old).exec_eq hop hill hacts h

/-- Settles O23: the execute action of each instruction on the renamed state is the renamed action
(`renamed_writeReg`, `readReg_renamed`, `renamed_alu`), and nothing else looks at a register (`exec_renamed`). -/
theorem registersAreInterchangeable : Obligations.RegistersAreInterchangeable := by
  intro new old hnew hold s r q imm
  have legal (p : Fin 8) : legalReg (regByte p) := regByte_legal p
  refine ⟨fun t => ?_, fun t => ?_, fun t => ?_, fun t => ?_, fun t => ?_⟩
  · refine exec_renamed rfl (legal r) (legal (new r)) fun u hu => ?_
    obtain ⟨p, hp, rfl⟩ := hu
    exact ⟨new r, (regByte_toNat _).symm, eq_of_regByte hp ▸ renamed_writeReg hnew hold s p imm⟩
  · refine exec_renamed rfl (legal r) (legal (new r)) fun u hu => ?_
    obtain ⟨p, hp, rfl⟩ := hu
    refine ⟨new r, (regByte_toNat _).symm, ?_⟩
    rw [readReg_renamed, hold, eq_of_regByte hp]
    rfl
  · exact exec_renamed rfl ⟨legal r, legal q⟩ ⟨legal (new r), legal (new q)⟩ fun u => acts_renamed_alu hnew hold .mul
  · exact exec_renamed rfl ⟨legal r, legal q⟩ ⟨legal (new r), legal (new q)⟩ fun u => acts_renamed_alu hnew hold .add
  · exact exec_renamed rfl trivial trivial fun u hu => congrArg (renamed old) hu

/-! ### Memory and the output stream -/

/-- Settles O25: `exec_mem` and `stepWith_mem`. -/
theorem noInstructionStores : Obligations.NoInstructionStores :=
  ⟨fun _ _ _ h a => congrArg (memRead · a) (exec_mem h),
    fun _ _ _ h => ⟨stepWith_mem h, fun a => congrArg (memRead · a) (stepWith_mem h)⟩⟩

/-- The execute action of PRN appends the value of the register it names, and no other writes the stream (R88). -/
theorem acts_out {i : Instr} {s u : State} (h : Acts i s u) :
    u.out = s.out ∨ ∃ (a : Byte) (r : Fin 8), i = .prn a ∧ r.val = a.toNat ∧ u.out = s.out ++ [s.readReg r] := by
  cases i with
  | prn a => obtain ⟨r, hr, rfl⟩ := h; exact .inr ⟨a, r, rfl, hr, rfl⟩
  | ldi a imm => obtain ⟨r, -, rfl⟩ := h; exact .inl rfl
  | mul a b | add a b => obtain ⟨r, q, -, -, rfl⟩ := h; exact .inl rfl
  | hlt => obtain rfl : u = s.stop := h; exact .inl rfl

/-- What an instruction can do to the output stream, a fault included. -/
theorem exec_out {i : Instr} {s t : State} (h : exec i s = .next t) :
    t.out = s.out ∨ ∃ (a : Byte) (r : Fin 8), i = .prn a ∧ r.val = a.toNat ∧ t.out = s.out ++ [s.readReg r] := by
  obtain ⟨-, rfl⟩ | ⟨-, k, v, -, rfl⟩ | ⟨-, -, u, hu, rfl⟩ := exec_cases h
  · exact .inl rfl
  · exact .inl rfl
  · rw [advance_out]
    exact acts_out hu

/-- Settles O27: `exec_out` for the instructions, and a step that executes none leaves the stream. -/
theorem outputOnlyGrowsAndOnlyByPrn : Obligations.OutputOnlyGrowsAndOnlyByPrn := by
  refine ⟨fun i s t h hne => ?_, fun a s t h => ?_, fun cfg s t h => ?_⟩
  · obtain hout | ⟨a, -, rfl, -⟩ := exec_out h
    · exact hout
    · exact absurd rfl (hne a)
  · obtain hout | ⟨a', r, hi, hr, hout⟩ := exec_out h
    · exact .inl hout
    · obtain rfl := Instr.prn.inj hi
      exact .inr ⟨r, hr, hout⟩
  · obtain ⟨-, rfl⟩ | ⟨-, f, rfl⟩ | ⟨-, i, -, -, -, he⟩ := stepWith_cases h
    · exact .inl rfl
    · exact .inl rfl
    · exact (exec_out he).imp_right fun ⟨_, r, _, _, hout⟩ => ⟨s.readReg r, hout⟩

end Sys2Proof.Machine
end

section
/-! Proofs for 41_load_immediate.md to 44_halt.md and 40_engine_cycle.md section 5: what each instruction does, and what
an illegal register does (R79, R85, R88, R90, R91, R95). -/

namespace Sys2Proof.Machine

open Sys2Proof.Safety

/-! ### Illegal registers -/

/-- Settles O18: in each form the operand named is the first illegal one, and the check stops at it (`exec_illegal`). -/
theorem illegalRegisterFaults : Obligations.IllegalRegisterFaults := by
  refine ⟨fun a b s ha hin => ?_, fun a s ha hin => ?_, fun a b s ha hb hin => ?_⟩
  · have ha' : ¬ a.toNat ≤ 7 := by omega
    have hin' : s.pc.toNat + 3 ≤ 256 := by omega
    exact ⟨exec_illegal hin' (if_neg ha'), exec_illegal hin' (if_neg ha'), exec_illegal hin' (if_neg ha')⟩
  · have hin' : s.pc.toNat + 2 ≤ 256 := by omega
    exact exec_illegal hin' (if_neg (by omega))
  · have hin' : s.pc.toNat + 3 ≤ 256 := by omega
    have hill : firstIllegal (.mul a b) = some (2, b) := (if_pos ha).trans (if_neg (by omega))
    exact ⟨exec_illegal hin' hill, exec_illegal hin' hill⟩

/-! ### The execute actions -/

section Actions
variable {a b : Byte} {r q : Fin 8} (s : State) (ha : a.toNat = r.val) (hb : b.toNat = q.val)
include ha

theorem acts_ldi (imm : Byte) : Acts (.ldi a imm) s (s.writeReg r imm) := ⟨r, ha.symm, rfl⟩

theorem acts_prn : Acts (.prn a) s (s.emit (s.readReg r)) := ⟨r, ha.symm, rfl⟩

include hb

theorem acts_mul : Acts (.mul a b) s (s.alu .mul r q) := ⟨r, q, ha.symm, hb.symm, rfl⟩

theorem acts_add : Acts (.add a b) s (s.alu .add r q) := ⟨r, q, ha.symm, hb.symm, rfl⟩

end Actions

/-! ### Ending below 255 -/

/-- Settles O10: `exec_of_acts_inside`. -/
theorem prnEmitsTheRegister : Obligations.PrnEmitsTheRegister :=
  fun _ _ s ha hin => exec_of_acts_inside hin (acts_prn s ha)

/-- Settles O11: `exec_of_acts_inside`. -/
theorem mulWritesTheProduct : Obligations.MulWritesTheProduct :=
  fun _ _ _ _ s ha hb hin => exec_of_acts_inside hin (acts_mul s ha hb)

/-- Settles O12: `exec_of_acts_inside`. -/
theorem addWritesTheSum : Obligations.AddWritesTheSum :=
  fun _ _ _ _ s ha hb hin => exec_of_acts_inside hin (acts_add s ha hb)

/-- Settles O13: below 255 the pc advances (`exec_of_acts_inside`), and at 255 it stays (`exec_hlt_at_top`). -/
theorem hltStopsTheRun : Obligations.HltStopsTheRun := by
  intro s
  by_cases hin : s.pc.toNat < 255
  · rw [if_pos hin]
    exact exec_of_acts_inside (i := .hlt) (u := s.stop) hin rfl
  · have hpc := s.pc.isLt
    rw [if_neg hin]
    exact exec_hlt_at_top (by omega)

/-! ### Ending at 255 -/

/-- Settles O15: the execute action of each instruction, then MEM_BOUNDS_FETCH (`exec_of_acts_at_top`). -/
theorem instructionEndingAt255TakesEffectAndFaults : Obligations.InstructionEndingAt255TakesEffectAndFaults := by
  refine ⟨fun a imm r s ha hpc => ?_, fun a r s ha hpc => ?_, fun a b r q s ha hb hpc => ⟨?_, ?_⟩⟩
  · exact exec_of_acts_at_top (i := .ldi a imm) (by rw [hpc, size_ldi]) nofun (acts_ldi s ha imm)
  · exact exec_of_acts_at_top (i := .prn a) (by rw [hpc, size_prn]) nofun (acts_prn s ha)
  · exact exec_of_acts_at_top (i := .mul a b) (by rw [hpc, size_mul]) nofun (acts_mul s ha hb)
  · exact exec_of_acts_at_top (i := .add a b) (by rw [hpc, size_add]) nofun (acts_add s ha hb)

/-! ### The listings of 30_encoding.md section 6 -/

/-- Settles O47: the table is `encode`; bytes that stand in memory are fetched and executed (`Fetched.stepWith_eq`); and
MUL and ADD write the first operand's register alone, whether or not they end at 255 (`exec_of_acts`). -/
theorem listingBytesRunAsTheInstruction : Obligations.ListingBytesRunAsTheInstruction := by
  refine ⟨fun a b => ⟨rfl, rfl, rfl, rfl, rfl⟩, fun cfg i s he hfetch hin hbytes => ?_, fun a b r q s ha hb hin => ?_⟩
  · have hf : Fetched cfg s i := ⟨hfetch, hin, hbytes⟩
    exact hf.stepWith_eq he
  · refine ⟨_, _, exec_of_acts hin (acts_mul s ha hb), exec_of_acts hin (acts_add s ha hb), ?_, ?_, fun hne => ⟨?_, ?_⟩⟩
    · exact advance_x _ _
    · exact advance_x _ _
    · exact (advance_readReg _ _ q).trans (alu_readReg_other s .mul r q q hne)
    · exact (advance_readReg _ _ q).trans (alu_readReg_other s .add r q q hne)

/-! ### Arithmetic -/

/-- The byte an integer maps to holds that integer modulo 256 (R92). -/
theorem toNat_ofInt_byte (z : Int) : ((BitVec.ofInt 8 z).toNat : Int) = z % 256 := by
  rw [BitVec.toNat_ofInt]
  omega

/-- Settles O41: the ALU's operations are those of the ring of bytes (`aluResult_add_eq`, `aluResult_mul_eq`), onto
which the integers map (`BitVec.ofInt_add`, `BitVec.ofInt_mul`). -/
theorem arithmeticIsThatOfTheIntegersModulo256 : Obligations.ArithmeticIsThatOfTheIntegersModulo256 := by
  intro u v w
  refine ⟨aluResult_add u v, aluResult_mul u v, ?_⟩
  simp only [aluResult_add_eq, aluResult_mul_eq]
  refine ⟨BitVec.add_comm u v, BitVec.mul_comm u v, BitVec.add_assoc u v w, BitVec.mul_assoc u v w, BitVec.add_zero u,
    BitVec.mul_one u, BitVec.mul_add, ?_, ?_⟩
  · rw [← toNat_ofInt_byte, BitVec.ofInt_add, BitVec.ofInt_toInt, BitVec.ofInt_toInt]
  · rw [← toNat_ofInt_byte, BitVec.ofInt_mul, BitVec.ofInt_toInt, BitVec.ofInt_toInt]

/-- Settles O42: the two orders write the same product (R92), each to its first operand's register. -/
theorem mulOperandsCommute : Obligations.MulOperandsCommute := by
  intro a b r q s ha hb hin
  have hr : (s.alu .mul r q).readReg r = s.readReg r * s.readReg q := by rw [alu_readReg_same, aluResult_mul_eq]
  have hq : (s.alu .mul q r).readReg q = s.readReg q * s.readReg r := by rw [alu_readReg_same, aluResult_mul_eq]
  refine ⟨_, _, exec_of_acts_inside hin (acts_mul s ha hb), exec_of_acts_inside hin (acts_mul s hb ha), ?_, ?_⟩
  · exact hr.trans ((BitVec.mul_comm _ _).trans hq.symm)
  · exact (congrArg BitVec.toNat hr).trans (BitVec.toNat_mul _ _)

/-! ### The output text (R87) -/

theorem outputText_append (cfg : Config) (out : List Byte) (v : Byte) :
    outputText cfg (out ++ [v]) = outputText cfg out ++ dec v ++ cfg.lineBreak := by
  simp [outputText, List.flatMap_append]

/-- Settles O43: PRN emits the register LDI wrote (`readReg_writeReg_same`). -/
theorem ldiThenPrnPrintsTheValue : Obligations.LdiThenPrnPrintsTheValue := by
  intro cfg a v s ha hin
  obtain ⟨r, hr⟩ : ∃ r : Fin 8, a.toNat = r.val := ⟨⟨a.toNat, by omega⟩, rfl⟩
  have hin3 : s.pc.toNat + (Instr.ldi a v).size ≤ 255 := by rw [size_ldi]; omega
  have hldi := exec_of_acts_inside hin3 (acts_ldi s hr v)
  have hpc := toNat_pc_add_size hin3
  have hprn := exec_of_acts_inside (by rw [setPc_pc, hpc, size_ldi, size_prn]; exact hin)
    (acts_prn ((s.writeReg r v).setPc (s.pc + BitVec.ofNat 8 (Instr.ldi a v).size)) hr)
  rw [readReg_setPc, readReg_writeReg_same] at hprn
  exact ⟨_, _, hldi, hprn, rfl, outputText_append cfg s.out v⟩

/-- The digits of `dec`, most significant first, as numbers (`dec_eq_map_digitChar`). -/
def decDigits (n : Nat) : List Nat :=
  if n < 10 then [n] else if n < 100 then [n / 10, n % 10] else [n / 100, n / 10 % 10, n % 10]

theorem dec_eq_map_digitChar (v : Byte) : dec v = (decDigits v.toNat).map digitChar := by
  rw [decDigits, apply_ite (List.map digitChar), apply_ite (List.map digitChar)]
  rfl

theorem decDigits_length (n : Nat) : 1 ≤ (decDigits n).length ∧ (decDigits n).length ≤ 3 := by
  unfold decDigits
  split
  · simp
  · split <;> simp

theorem decDigits_lt {n d : Nat} (hn : n < 1000) (hd : d ∈ decDigits n) : d < 10 := by
  unfold decDigits at hd
  split at hd
  · obtain rfl := List.mem_singleton.1 hd
    assumption
  · split at hd <;> simp only [List.mem_cons, List.not_mem_nil, or_false] at hd <;> omega

theorem decDigits_value (n : Nat) : (decDigits n).foldl (fun n d => 10 * n + d) 0 = n := by
  unfold decDigits
  split
  · simp
  · split <;> simp only [List.foldl_cons, List.foldl_nil] <;> omega

/-- No leading zero: only 0 itself begins with the digit 0. -/
theorem decDigits_head_zero {n : Nat} (h : (decDigits n).head? = some 0) : n = 0 := by
  unfold decDigits at h
  split at h
  · exact Option.some.inj h
  · split at h <;> have h0 := Option.some.inj h <;> omega

/-- The characters `0` to `9` are U+0030 to U+0039. -/
theorem digitChar_toNat {d : Nat} (h : d < 10) : (digitChar d).toNat = 48 + d := by
  interval_cases d <;> rfl

theorem digitChar_eq_zero {d : Nat} (h : d < 10) (hd : digitChar d = '0') : d = 0 := by
  have hval := digitChar_toNat h
  rw [hd] at hval
  exact (Nat.add_left_cancel hval).symm

/-- Reading a numeral's characters back gives what its digits stand for. -/
theorem foldl_map_digitChar {ds : List Nat} (n : Nat) (h : ∀ d ∈ ds, d < 10) :
    (ds.map digitChar).foldl (fun n c => 10 * n + (c.toNat - 48)) n = ds.foldl (fun n d => 10 * n + d) n := by
  induction ds generalizing n with
  | nil => rfl
  | cons d ds ih =>
    rw [List.map_cons, List.foldl_cons, List.foldl_cons, digitChar_toNat (h d List.mem_cons_self),
      Nat.add_sub_cancel_left]
    exact ih _ fun e he => h e (List.mem_cons_of_mem d he)

/-- Settles O44: a numeral is its digits (`dec_eq_map_digitChar`), of which each property holds, written in the
characters of R87; the text of a longer stream extends that of the shorter (`outputText_append`). -/
theorem outputTextIsPlainDecimal : Obligations.OutputTextIsPlainDecimal := by
  refine ⟨fun v => ?_, fun cfg => ⟨rfl, outputText_append cfg⟩, rfl⟩
  have hlt {d : Nat} (hd : d ∈ decDigits v.toNat) : d < 10 := decDigits_lt (v.isLt.trans (by decide)) hd
  rw [dec_eq_map_digitChar, List.length_map]
  obtain ⟨hmin, hmax⟩ := decDigits_length v.toNat
  refine ⟨hmin, hmax, fun c hc => ?_, ?_, fun hz => ?_⟩
  · obtain ⟨d, hd, rfl⟩ := List.mem_map.1 hc
    have hd' := hlt hd
    rw [digitChar_toNat hd']
    omega
  · rw [foldl_map_digitChar 0 fun d => hlt, decDigits_value]
  · rw [List.head?_map, Option.map_eq_some_iff] at hz
    obtain ⟨d, hd, hd0⟩ := hz
    obtain rfl := digitChar_eq_zero (hlt (List.mem_of_mem_head? hd)) hd0
    have hv := decDigits_head_zero hd
    rw [hv]
    exact ⟨BitVec.eq_of_toNat_eq hv, rfl⟩

end Sys2Proof.Machine
end

section
/-! Proofs for 20_memory.md and 70_reset_and_hazards.md: the canonical memory, reset, the load port, the launch state and
the placing of one instruction. -/

namespace Sys2Proof.Machine

open Sys2Proof.Safety

/-! ### Canonical memories (log 5) -/

/-- Every cell that is not 0 lies at or above the first listed one. -/
theorem head_le_of_cell_ne_zero {m : Memory} {lo k a : Nat} {v : Byte} (h : Memory.wfFrom lo ((k, v) :: m) = true)
    (ha : Memory.cell ((k, v) :: m) a ≠ 0) : k ≤ a := by
  obtain ⟨-, hk, hv, hm⟩ := (wfFrom_cons ..).1 h
  by_contra hlt
  exact ha (cell_below ((wfFrom_cons ..).2 ⟨le_rfl, hk, hv, hm⟩) (Nat.lt_of_not_le hlt))

/-- The first listed cell is the lowest that is not 0, so two canonical lists with the same cells begin alike. -/
theorem wfFrom_ext {m m' : Memory} {lo lo' : Nat} (h : Memory.wfFrom lo m = true) (h' : Memory.wfFrom lo' m' = true)
    (hcell : ∀ a, m.cell a = m'.cell a) : m = m' := by
  induction m generalizing m' lo lo' with
  | nil =>
    cases m' with
    | nil => rfl
    | cons c' m' =>
      obtain ⟨-, -, hv', -⟩ := (wfFrom_cons ..).1 h'
      exact absurd ((hcell c'.1).trans (if_pos rfl)) hv'.symm
  | cons c m ih =>
    obtain ⟨k, v⟩ := c
    obtain ⟨-, -, hv, hm⟩ := (wfFrom_cons ..).1 h
    have hkv : Memory.cell ((k, v) :: m) k = v := if_pos rfl
    cases m' with
    | nil => exact absurd ((hcell k).symm.trans hkv) hv.symm
    | cons c' m' =>
      obtain ⟨k', v'⟩ := c'
      obtain ⟨-, -, hv', hm'⟩ := (wfFrom_cons ..).1 h'
      have hkv' : Memory.cell ((k', v') :: m') k' = v' := if_pos rfl
      have hk : k = k' := Nat.le_antisymm
        (head_le_of_cell_ne_zero h (by rwa [hcell, hkv'])) (head_le_of_cell_ne_zero h' (by rwa [← hcell, hkv]))
      subst hk
      obtain rfl : v = v' := hkv.symm.trans ((hcell k).trans hkv')
      have htail : m = m' := ih hm hm' fun a => by
        have ha := hcell a
        rw [cell_cons, cell_cons] at ha
        by_cases hka : k = a
        · rw [cell_below hm (by omega), cell_below hm' (by omega)]
        · rwa [if_neg hka, if_neg hka] at ha
      rw [htail]

/-- Settles O37: cells above 255 are 0 on both sides (`cell_above`), so all cells agree (`wfFrom_ext`). -/
theorem equalCellsAreEqualMemories : Obligations.EqualCellsAreEqualMemories := by
  intro m m' hm hm' hread
  refine wfFrom_ext hm hm' fun a => ?_
  by_cases ha : a ≤ 255
  · have hra := hread a ha
    rw [memRead, memRead, if_pos ha, if_pos ha] at hra
    exact Option.some.inj hra
  · rw [cell_above hm (by omega), cell_above hm' (by omega)]

/-! ### Reset -/

theorem memRead_reset {a : Nat} (ha : a ≤ 255) : memRead State.reset.mem a = some 0 := if_pos ha

/-- Settles O33: the reset event answers the one reset state, whatever the state before. -/
theorem resetGivesEveryElementItsValue : Obligations.ResetGivesEveryElementItsValue := by
  intro s
  have hx : ∀ r : Fin 8, State.reset.x[r] = if r = 6 then 0xF4 else 0 := by decide
  exact ⟨hx, rfl, rfl, rfl, rfl, rfl, fun a ha => memRead_reset ha, rfl⟩

/-! ### The load port -/

/-- Settles O36: the open port writes and reads the one cell (`loadWrite_open`, `cell_put_same`, `cell_put_other`),
refuses an address above 255 (`load_outside`), and the closed one refuses all (`load_closed`). -/
theorem loadPortWritesOneCell : Obligations.LoadPortWritesOneCell := by
  refine ⟨fun s a v hs hm ha => ?_, fun s a v hs ha => ?_, fun s a v hs => ?_⟩
  · have hopen := (loadOpen_iff s).2 hs
    have hopen' := loadOpen_setMem (s.mem.put a (BitVec.ofNat 8 v)) hopen
    refine ⟨_, loadWrite_open v hopen ha, put_keeps_wf _ hm ha, ?_, fun b hb => ?_⟩
    · exact (loadRead_open hopen' ha).trans (congrArg Except.ok (cell_put_same _ hm))
    · by_cases hb255 : b ≤ 255
      · rw [loadRead_open hopen hb255]
        exact (loadRead_open hopen' hb255).trans (congrArg Except.ok (cell_put_other _ _ hb))
      · rw [(load_outside 0 hopen (by omega)).2]
        exact (load_outside 0 hopen' (by omega)).2
  · exact load_outside v ((loadOpen_iff s).2 hs) ha
  · exact load_closed a v (Bool.eq_false_iff.2 fun hopen => hs ((loadOpen_iff s).1 hopen))

/-- The port of a machine whose step is not enabled is closed (R115). -/
theorem loadOpen_of_disabled {s : State} (he : s.enabled = false) : s.loadOpen = false :=
  Bool.eq_false_iff.2 fun hopen => absurd (he.symm.trans (loadOpen_launch hopen).1) nofun

/-- No step answers a state with an open port: it is ended, or its pc has left 0 (`pcNeverDecreases`). -/
theorem loadOpen_after_step {cfg : Config} {s t : State} (h : stepWith cfg s = .next t) : t.loadOpen = false := by
  refine Bool.eq_false_iff.2 fun hopen => ?_
  obtain ⟨het, hpc⟩ := loadOpen_launch hopen
  have hlt := (pcNeverDecreases cfg s t h).2 het
  rw [hpc] at hlt
  exact Nat.not_lt_zero _ hlt

/-- Settles O45: `loadOpen_after_step`. -/
theorem loadPortIsClosedByTheFirstStep : Obligations.LoadPortIsClosedByTheFirstStep :=
  fun _ _ _ h a v => load_closed a v (loadOpen_after_step h)

/-- Settles O46: the step is not enabled, so it changes nothing and the port is closed, and reset opens it again. -/
theorem endedMachineIsFrozenUntilReset : Obligations.EndedMachineIsFrozenUntilReset := by
  intro cfg s hended
  have he := (enabled_eq_false_iff s).2 hended
  exact ⟨stepWith_disabled he, fun a v => load_closed a v (loadOpen_of_disabled he), rfl, rfl,
    fun a ha => loadRead_open loadOpen_reset ha⟩

/-! ### The load of a program (R117) -/

/-- The memory with bytes stored at ascending addresses from `k`: what the load comes to (`loadFrom_fits`). -/
def Memory.putBytes (k : Nat) : List Byte → Memory → Memory
  | [], m => m
  | b :: bs, m => Memory.putBytes (k + 1) bs (m.put k b)

theorem loadWrite_byte {s : State} {k : Nat} (b : Byte) (h : s.loadOpen = true) (hk : k ≤ 255) :
    s.loadWrite k b.toNat = .next (s.setMem (s.mem.put k b)) := by
  rw [loadWrite_open _ h hk, BitVec.ofNat_toNat, BitVec.setWidth_eq]

theorem loadFrom_cons {s s' : State} {k : Nat} {b : Byte} (bs : List Byte) (h : s.loadWrite k b.toNat = .next s') :
    State.loadFrom k (b :: bs) s = State.loadFrom (k + 1) bs s' := by
  rw [State.loadFrom, h]

theorem loadFrom_fits {bs : List Byte} {k : Nat} {s : State} (h : s.loadOpen = true) (hk : k + bs.length ≤ 256) :
    State.loadFrom k bs s = .next (s.setMem (s.mem.putBytes k bs)) := by
  induction bs generalizing k s with
  | nil => rfl
  | cons b bs ih =>
    rw [List.length_cons] at hk
    rw [loadFrom_cons bs (loadWrite_byte b h (by omega)), ih (loadOpen_setMem _ h) (by omega)]
    rfl

/-- A load that does not fit is refused at address 256 (D13). -/
theorem loadFrom_overflows {bs : List Byte} {k : Nat} {s : State} (h : s.loadOpen = true) (hk : k ≤ 256)
    (hlen : 256 < k + bs.length) : State.loadFrom k bs s = .refused (.loadBounds 256) := by
  induction bs generalizing k s with
  | nil => rw [List.length_nil] at hlen; omega
  | cons b bs ih =>
    rw [List.length_cons] at hlen
    by_cases hk' : k ≤ 255
    · rw [loadFrom_cons bs (loadWrite_byte b h hk')]
      exact ih (loadOpen_setMem _ h) (by omega) (by omega)
    · obtain rfl : k = 256 := by omega
      rw [State.loadFrom, (load_outside b.toNat h (by decide)).1]

theorem putBytes_keeps_wf {bs : List Byte} {k : Nat} {m : Memory} (h : m.wf = true) (hk : k + bs.length ≤ 256) :
    (m.putBytes k bs).wf = true := by
  induction bs generalizing k m with
  | nil => exact h
  | cons b bs ih =>
    rw [List.length_cons] at hk
    exact ih (put_keeps_wf b h (by omega)) (by omega)

theorem cell_putBytes_outside {bs : List Byte} {k a : Nat} (m : Memory) (ha : a < k ∨ k + bs.length ≤ a) :
    (m.putBytes k bs).cell a = m.cell a := by
  induction bs generalizing k m with
  | nil => rfl
  | cons b bs ih =>
    rw [List.length_cons] at ha
    rw [Memory.putBytes, ih _ (by omega), cell_put_other _ _ (by omega)]

theorem cell_putBytes {bs : List Byte} {k j : Nat} {m : Memory} (h : m.wf = true) (hk : k + bs.length ≤ 256)
    (hj : j < bs.length) : (m.putBytes k bs).cell (k + j) = bs[j] := by
  induction bs generalizing k j m with
  | nil => exact absurd hj (Nat.not_lt_zero j)
  | cons b bs ih =>
    rw [List.length_cons] at hk
    rw [Memory.putBytes]
    cases j with
    | zero => rw [cell_putBytes_outside _ (by omega), Nat.add_zero, cell_put_same b h]; rfl
    | succ j =>
      rw [← Nat.succ_add_eq_add_succ k j, ih (put_keeps_wf b h (by omega)) (by omega) (Nat.lt_of_succ_lt_succ hj)]
      rfl

theorem launch_fits {prog : List Byte} (h : prog.length ≤ 256) :
    launch prog = .next (State.reset.setMem (State.reset.mem.putBytes 0 prog)) :=
  loadFrom_fits loadOpen_reset (by omega)

/-- Settles O34: the load is `Memory.putBytes` on the cleared memory (`launch_fits`), whose cells are the program's bytes
and, past them, those of reset. -/
theorem launchStateHoldsTheProgram : Obligations.LaunchStateHoldsTheProgram := by
  intro cfg prog hlen
  have hfit : 0 + prog.length ≤ 256 := by omega
  have hwf := putBytes_keeps_wf reset_mem_wf hfit
  refine ⟨_, launch_fits hlen, rfl, fun k hk => ?_, fun k hk hk255 => ?_, inv_of_enabled cfg hwf rfl rfl⟩
  · have hcell := cell_putBytes reset_mem_wf hfit hk
    rw [Nat.zero_add] at hcell
    rw [setMem_mem, memRead, if_pos (by omega), hcell]
  · rw [setMem_mem, memRead, if_pos hk255, cell_putBytes_outside _ (by omega)]
    rfl

/-- Settles O35: `loadFrom_overflows`. -/
theorem programThatDoesNotFitIsRefused : Obligations.ProgramThatDoesNotFitIsRefused :=
  fun _ hlen => loadFrom_overflows loadOpen_reset (by decide) (by omega)

/-! ### Placing one instruction (log 8) -/

/-- The number whose bytes, the first lowest, are the bytes of a list. -/
def bytesWord (bs : List Byte) : Nat := bs.foldr (fun b acc => b.toNat + 256 * acc) 0

theorem bytesWord_lt (bs : List Byte) : bytesWord bs < 256 ^ bs.length := by
  induction bs with
  | nil => decide
  | cons b bs ih =>
    have hb := b.isLt
    rw [List.length_cons, Nat.pow_succ]
    change b.toNat + 256 * bytesWord bs < _
    omega

/-- Byte `k` of the number is byte `k` of the list. -/
theorem bytesWord_byte {bs : List Byte} {k : Nat} (hk : k < bs.length) :
    BitVec.ofNat 8 (bytesWord bs / 256 ^ k) = bs[k] := by
  induction bs generalizing k with
  | nil => exact absurd hk (Nat.not_lt_zero k)
  | cons b bs ih =>
    have hb := b.isLt
    have hword : bytesWord (b :: bs) = b.toNat + 256 * bytesWord bs := rfl
    cases k with
    | zero =>
      apply BitVec.eq_of_toNat_eq
      rw [hword, BitVec.toNat_ofNat, List.getElem_cons_zero]
      omega
    | succ k =>
      have hdiv : bytesWord (b :: bs) / 256 = bytesWord bs := by omega
      rw [Nat.pow_succ', ← Nat.div_div_eq_div_mul, hdiv, List.getElem_cons_succ]
      exact ih (Nat.lt_of_succ_lt_succ hk)

/-- Byte `k` of an instruction's table word is byte `k` of its encoding. -/
theorem tableByte_tableWord {i : Instr} {k : Nat} (hk : k < (encode i).length) :
    tableByte (8 * i.size) (tableWord i) k = (encode i)[k] := by
  have hlt : tableWord i < 2 ^ (8 * i.size) := by
    rw [Nat.pow_mul, ← encode_length]
    exact bytesWord_lt (encode i)
  rw [tableByte, Nat.mod_eq_of_lt hlt]
  exact bytesWord_byte hk

/-- The two bytes after the first one of a table word begin with the operand bytes. -/
theorem tableWord_operandBytes (i : Instr) :
    ∃ rest, [tableByte (8 * i.size) (tableWord i) 1, tableByte (8 * i.size) (tableWord i) 2] =
      i.operandBytes ++ rest := by
  have hbyte (k : Nat) (hk : k < (encode i).length) := tableByte_tableWord hk
  cases i with
  | hlt => exact ⟨_, rfl⟩
  | prn a => exact ⟨_, by rw [hbyte 1 (by simp [encode_length])]; rfl⟩
  | ldi a b | mul a b | add a b =>
    exact ⟨[], by rw [hbyte 1 (by simp [encode_length]), hbyte 2 (by simp [encode_length])]; rfl⟩

theorem decodeTableWord_tableWord (i : Instr) : decodeTableWord (8 * i.size) (tableWord i) = some i := by
  have hop : tableByte (8 * i.size) (tableWord i) 0 = i.opcode.byte := tableByte_tableWord (Nat.zero_lt_succ _)
  obtain ⟨rest, hrest⟩ := tableWord_operandBytes i
  have hdecode : decode Config.spec i.opcode.byte (i.operandBytes ++ rest) = .ok (i, rest) :=
    decode_operandBytes rest (decodeOpcode_byte _ _ fun _ => rfl)
  rw [decodeTableWord, hop, hrest, hdecode]

section Placing
variable (s : State) (nbits w k : Nat)

theorem withFetchByte_eq_setMem : ∃ m, s.withFetchByte nbits w k = s.setMem m := by
  unfold State.withFetchByte
  split
  · exact ⟨_, rfl⟩
  · exact ⟨s.mem, rfl⟩

theorem withFetchByte_addrOf (j : Nat) : (s.withFetchByte nbits w k).addrOf j = s.addrOf j := by
  obtain ⟨m, hm⟩ := withFetchByte_eq_setMem s nbits w k
  rw [hm, addrOf_setMem]

theorem withFetchByte_enabled : (s.withFetchByte nbits w k).enabled = s.enabled := by
  obtain ⟨m, hm⟩ := withFetchByte_eq_setMem s nbits w k
  rw [hm]
  rfl

variable {s k}

theorem fetchByte_withFetchByte_same (hm : s.mem.wf = true) (hk : s.addrOf k ≤ 255) :
    (s.withFetchByte nbits w k).fetchByte k = tableByte nbits w k := by
  rw [State.withFetchByte, if_pos hk]
  exact cell_put_same _ hm

theorem fetchByte_withFetchByte_other {j : Nat} (hj : j ≠ k) :
    (s.withFetchByte nbits w k).fetchByte j = s.fetchByte j := by
  have hne : s.addrOf j ≠ s.addrOf k := by rw [State.addrOf, State.addrOf]; omega
  unfold State.withFetchByte
  split
  · exact cell_put_other _ _ hne
  · rfl

/-- Each of the three bytes that exists is stored where an enabled step fetches it. -/
theorem fetchByte_withFetchWord {j : Nat} (hm : s.mem.wf = true) (hj : j < 3) (hin : s.addrOf j ≤ 255) :
    (s.withFetchWord nbits w).fetchByte j = tableByte nbits w j := by
  have hm0 := withFetchByte_keeps_wf nbits w 0 hm
  have hm1 := withFetchByte_keeps_wf nbits w 1 hm0
  unfold State.withFetchWord
  match j with
  | 0 =>
    rw [fetchByte_withFetchByte_other nbits w (by decide), fetchByte_withFetchByte_other nbits w (by decide),
      fetchByte_withFetchByte_same nbits w hm hin]
  | 1 =>
    rw [fetchByte_withFetchByte_other nbits w (by decide), fetchByte_withFetchByte_same nbits w hm0]
    rwa [withFetchByte_addrOf]
  | 2 =>
    rw [fetchByte_withFetchByte_same nbits w hm1]
    rwa [withFetchByte_addrOf, withFetchByte_addrOf]

end Placing

theorem withFetchWord_enabled (s : State) (nbits w : Nat) : (s.withFetchWord nbits w).enabled = s.enabled := by
  rw [State.withFetchWord, withFetchByte_enabled, withFetchByte_enabled, withFetchByte_enabled]

theorem withFetchWord_pc (s : State) (nbits w : Nat) : (s.withFetchWord nbits w).pc.toNat = s.pc.toNat := by
  change (s.withFetchWord nbits w).addrOf 0 = s.addrOf 0
  rw [State.withFetchWord, withFetchByte_addrOf, withFetchByte_addrOf, withFetchByte_addrOf]

/-- Settles O38: the table word's bytes are the encoding's (`tableByte_tableWord`); placed at the pc they are fetched
(`fetchByte_withFetchWord`) and run (`Fetched.stepWith_eq`). -/
theorem placedInstructionIsTheOneRun : Obligations.PlacedInstructionIsTheOneRun := by
  intro i s he hm hin
  have hf : Fetched Config.spec (s.withFetchWord (8 * i.size) (tableWord i)) i := by
    refine ⟨fun _ => rfl, by rwa [withFetchWord_pc], fun k hk => ?_⟩
    have hk' := hk
    rw [encode_length] at hk'
    have hk3 := size_le i
    have haddr : s.addrOf k ≤ 255 := by rw [State.addrOf]; omega
    rw [fetchByte_withFetchWord _ _ hm (by omega) haddr, tableByte_tableWord hk]
  exact ⟨decodeTableWord_tableWord i, hf.stepWith_eq ((withFetchWord_enabled ..).trans he)⟩

end Sys2Proof.Machine
end
